-- ==== Sys2Proof/Word.lean ====
section
/-! DEFINITION. The word type, the register index and the two integer readings of the spec
(00_scope R12 to R14). -/

namespace Sys2Proof

/-- A register value, a data word or an instruction word: 32 bits (R13, `Word32`). -/
abbrev Word := BitVec 32

/-- A general register's index, 0 to 7 (R20). -/
abbrev Reg := Fin 8

/-- `signed(v)`: the two's-complement reading of a word, -2^31 to 2^31-1 (R13). -/
abbrev signed (v : Word) : Int := v.toInt

/-- `word(i)`: the word congruent to an integer modulo 2^32 (R13). -/
abbrev wordOf (i : Int) : Word := BitVec.ofInt 32 i

end Sys2Proof
end

