-- ==== Sys2Proof/Config.lean ====
section
/-! DEFINITION. What the spec leaves to the particular machine: the parameters of 00_scope R10 that
a cycle consults. They are plain data, so that a statement about the model holds for every value of
them and a run can still be computed. The launch parameters that only program load reads
(REG_INIT, DMEM_INIT) are arguments of `Machine.launch`. -/

namespace Sys2Proof

/-- HIGH_BITS_POLICY (30_encoding R76, D7): what a word with any of bits 31:25 set is.
DESIGN CHOICE of the spec: the default is `unrecognised` (log 3). -/
inductive HighBitsPolicy where
  /-- Such a word is of kind UNREC. -/
  | unrecognised
  /-- Bits 31:25 are ignored and the kind comes from the opcode field alone. -/
  | ignore
deriving DecidableEq, Repr

/-- ARITH_DEST_POLICY (30_encoding R79, D8): the destination index of ADD and NOR.
DESIGN CHOICE of the spec: the default is `field16Fault` (log 4). -/
inductive ArithDestPolicy where
  /-- The index is the whole 16-bit field, and 8 or more faults at Writeback. -/
  | field16Fault
  /-- The index is bits 2:0 of the word. -/
  | low3
deriving DecidableEq, Repr

/-- The parameters of 00_scope R10 that a cycle consults. -/
structure Config where
  /-- IMEM_WORDS, OPEN (R56, D14). -/
  imemWords : Nat
  /-- DMEM_WORDS, OPEN (R56, D14). -/
  dmemWords : Nat
  /-- IMEM_FILL, OPEN (R59, D17): instruction words past the program. -/
  imemFill : Word
  /-- DMEM_FILL, OPEN (R59, D17): data words past the initial image. -/
  dmemFill : Word
  /-- HIGH_BITS_POLICY (R76, D7). -/
  highBits : HighBitsPolicy
  /-- ARITH_DEST_POLICY (R79, D8). -/
  arithDest : ArithDestPolicy
  /-- STALL_CHECK_NONREADERS (R83, D9). -/
  stallCheckNonreaders : Bool
deriving DecidableEq, Repr

/-- The spec's defaults (R10). DESIGN CHOICE of the spec (log 3 to log 7). -/
def Config.default : Config where
  imemWords := 65536
  dmemWords := 65536
  imemFill := 0
  dmemFill := 0
  highBits := .unrecognised
  arithDest := .field16Fault
  stallCheckNonreaders := true

end Sys2Proof
end

