-- ==== Sys2Proof/Syntax.lean ====
section
/-! DEFINITION. The instructions: one constructor per row of spec/opcode_table.json (30_encoding
R72, R75). Every constructor keeps ALL the bits of its word, so that nothing the latches carry is
lost: `hi` is bits 31:25, which belong to no field (R71) and are zero in a recognised word unless
HIGH_BITS_POLICY is `ignore` (log 31); `rA` and `rB` are fields A and B; the last field is bits 15:0. -/

namespace Sys2Proof

/-- An instruction. -/
inductive Instr where
  /-- ADD, R format: `reg[dest] <- reg[rA] + reg[rB]` (R150). -/
  | add (hi : BitVec 7) (rA rB : Reg) (dest : BitVec 16)
  /-- NOR, R format: `reg[dest] <- ~(reg[rA] | reg[rB])` (R151). -/
  | nor (hi : BitVec 7) (rA rB : Reg) (dest : BitVec 16)
  /-- LW, I format: `reg[rB] <- dmem[reg[rA] + off]` (R160). -/
  | lw (hi : BitVec 7) (rA rB : Reg) (off : BitVec 16)
  /-- SW, I format: `dmem[reg[rA] + off] <- reg[rB]` (R161). -/
  | sw (hi : BitVec 7) (rA rB : Reg) (off : BitVec 16)
  /-- BEQ, I format: branch if `reg[rA] == reg[rB]` (R170). -/
  | beq (hi : BitVec 7) (rA rB : Reg) (off : BitVec 16)
  /-- Opcode 5, an unrecognised word: no effect (R75, R182). -/
  | unrecOp5 (hi : BitVec 7) (rA rB : Reg) (f16 : BitVec 16)
  /-- HALT, O format: the run stops when it retires (R180). -/
  | halt (hi : BitVec 7) (rA rB : Reg) (f16 : BitVec 16)
  /-- NOOP, O format: no effect (R181). -/
  | noop (hi : BitVec 7) (rA rB : Reg) (f16 : BitVec 16)
  /-- A word with a bit of 31:25 set under HIGH_BITS_POLICY = `unrecognised`: no effect, whatever
  its opcode field `op` holds (R76, R182). -/
  | unrecHigh (hi : BitVec 7) (op : BitVec 3) (rA rB : Reg) (f16 : BitVec 16)
deriving DecidableEq, Repr

/-- The decoded class of a word (00_scope glossary, 30_encoding R74). -/
inductive Kind where
  | ADD | NOR | LW | SW | BEQ | HALT | NOOP | UNREC
deriving DecidableEq, Repr

/-- The kind of an instruction (R74, R75). -/
def Instr.kind : Instr → Kind
  | .add .. => .ADD
  | .nor .. => .NOR
  | .lw .. => .LW
  | .sw .. => .SW
  | .beq .. => .BEQ
  | .unrecOp5 .. => .UNREC
  | .halt .. => .HALT
  | .noop .. => .NOOP
  | .unrecHigh .. => .UNREC

/-- Bits 31:25. -/
def Instr.hi : Instr → BitVec 7
  | .add hi .. | .nor hi .. | .lw hi .. | .sw hi .. | .beq hi .. => hi
  | .unrecOp5 hi .. | .halt hi .. | .noop hi .. | .unrecHigh hi .. => hi

/-- Field A. -/
def Instr.rA : Instr → Reg
  | .add _ a .. | .nor _ a .. | .lw _ a .. | .sw _ a .. | .beq _ a .. => a
  | .unrecOp5 _ a .. | .halt _ a .. | .noop _ a .. | .unrecHigh _ _ a .. => a

/-- Field B. -/
def Instr.rB : Instr → Reg
  | .add _ _ b _ | .nor _ _ b _ | .lw _ _ b _ | .sw _ _ b _ | .beq _ _ b _ => b
  | .unrecOp5 _ _ b _ | .halt _ _ b _ | .noop _ _ b _ | .unrecHigh _ _ _ b _ => b

/-- The 16-bit field. -/
def Instr.f16 : Instr → BitVec 16
  | .add _ _ _ f | .nor _ _ _ f | .lw _ _ _ f | .sw _ _ _ f | .beq _ _ _ f => f
  | .unrecOp5 _ _ _ f | .halt _ _ _ f | .noop _ _ _ f | .unrecHigh _ _ _ _ f => f

end Sys2Proof
end

