-- ==== Sys2Proof/WellFormed.lean ====
section
/-! DEFINITION. Which instructions a word can stand for. Register indices and field widths are in the
types; what is left is bits 31:25 (30_encoding R74, R76). -/

namespace Sys2Proof

/-- The instruction is one that a word decodes to under the policy. Under `unrecognised` a
recognised instruction (and opcode 5) has bits 31:25 zero and the UNREC_HIGH row has one of them
set; under `ignore` bits 31:25 are free and the UNREC_HIGH row does not exist. -/
def Instr.wellFormed (p : HighBitsPolicy) (i : Instr) : Bool :=
  match i with
  | .unrecHigh hi .. => p == .unrecognised && hi != 0
  | i => p == .ignore || i.hi == 0

end Sys2Proof
end

