-- ==== Sys2Proof/Decode.lean ====
section
/-! DEFINITION. The fields of a word, the decoder, and the encoder (30_encoding R70 to R81).
The bit positions and the opcode numbers are the spec's, from general knowledge of LC-2K:
PRESUMED (log 1, log 2). -/

namespace Sys2Proof

/-- `hi(w) = w[31:25]` (R71). -/
def fieldHi (w : Word) : BitVec 7 := w.extractLsb' 25 7

/-- `op(w) = w[24:22]` (R71). -/
def fieldOp (w : Word) : BitVec 3 := w.extractLsb' 22 3

/-- `A(w) = w[21:19]`, used directly as a register index (R71, R80). -/
def fieldA (w : Word) : Reg := (w.extractLsb' 19 3).toFin

/-- `B(w) = w[18:16]`, used directly as a register index (R71, R80). -/
def fieldB (w : Word) : Reg := (w.extractLsb' 16 3).toFin

/-- `f16(w) = w[15:0]` (R71). -/
def field16 (w : Word) : BitVec 16 := w.extractLsb' 0 16

/-- `sext_16(v)`: sign extension to an integer (00_scope R14, 30_encoding R78). -/
def sext16 (v : BitVec 16) : Int := if v.toNat < 2 ^ 15 then (v.toNat : Int) else (v.toNat : Int) - 2 ^ 16

/-- `zext_16(v)`: the 16-bit value itself (R14, R79). -/
def zext16 (v : BitVec 16) : Nat := v.toNat

/-- The canonical NOOP word: every bubble, and every latch at reset (R77, R42). -/
def noopWord : Word := 0x01C00000

/-- The canonical HALT word (R77). -/
def haltWord : Word := 0x01800000

/-- Dispatch on the opcode number alone (R75). -/
def decodeOp (op : BitVec 3) (hi : BitVec 7) (a b : Reg) (f : BitVec 16) : Instr :=
  match op.toNat with
  | 0 => .add hi a b f
  | 1 => .nor hi a b f
  | 2 => .lw hi a b f
  | 3 => .sw hi a b f
  | 4 => .beq hi a b f
  | 5 => .unrecOp5 hi a b f
  | 6 => .halt hi a b f
  | _ => .noop hi a b f

/-- The decoder: total on every word, rejecting none (R73, R74, R85). Under `unrecognised` a word
with any of bits 31:25 set is UNREC_HIGH whatever its opcode holds; under `ignore` the opcode
decides alone (R76). -/
def decode (p : HighBitsPolicy) (w : Word) : Instr :=
  match p with
  | .unrecognised =>
    if fieldHi w != 0 then .unrecHigh (fieldHi w) (fieldOp w) (fieldA w) (fieldB w) (field16 w)
    else decodeOp (fieldOp w) (fieldHi w) (fieldA w) (fieldB w) (field16 w)
  | .ignore => decodeOp (fieldOp w) (fieldHi w) (fieldA w) (fieldB w) (field16 w)

/-- `kind(w)` (R74). -/
def kindOf (p : HighBitsPolicy) (w : Word) : Kind := (decode p w).kind

/-- The word with the given fields: the concatenation of R81, with bits 31:25 given too. -/
def assembleWord (hi : BitVec 7) (op : BitVec 3) (a b : Reg) (f : BitVec 16) : Word :=
  hi ++ op ++ (BitVec.ofFin a : BitVec 3) ++ (BitVec.ofFin b : BitVec 3) ++ f

/-- `encode(op, a, b, f)` of R81: bits 31:25 zero. -/
def encodeFields (op : BitVec 3) (a b : Reg) (f : BitVec 16) : Word := assembleWord 0 op a b f

/-- The encoder: the word of an instruction, from the opcode numbers of R75. -/
def encode : Instr → Word
  | .add hi a b f => assembleWord hi 0 a b f
  | .nor hi a b f => assembleWord hi 1 a b f
  | .lw hi a b f => assembleWord hi 2 a b f
  | .sw hi a b f => assembleWord hi 3 a b f
  | .beq hi a b f => assembleWord hi 4 a b f
  | .unrecOp5 hi a b f => assembleWord hi 5 a b f
  | .halt hi a b f => assembleWord hi 6 a b f
  | .noop hi a b f => assembleWord hi 7 a b f
  | .unrecHigh hi op a b f => assembleWord hi op a b f

/-- The instruction the decoder reads from the word `w` of `nbits` bits, under the spec's default
policy. Every instruction is one 32-bit word, so bit 0 of the table is bit 0 of the word (R70, R12);
bits above `nbits` are 0, and there is no instruction longer than 32 bits. -/
def decodeTableWord (nbits w : Nat) : Option Instr :=
  if nbits ≤ 32 then some (decode Config.default.highBits (BitVec.ofNat 32 (w % 2 ^ nbits))) else none

end Sys2Proof
end

