-- ==== Sys2Proof/Machine/State.lean ====
section
/-! DEFINITION. The machine's state, as 10_state section 1 gives it, its reset value, and the ways a
step can stop. Plain data throughout. The state of the sequential reference (70_reset R230) stands
here too. -/

namespace Sys2Proof.Machine

/-- The general registers r0 to r7, all ordinary (R20). -/
abbrev Regs := Vector Word 8

/-- A memory of 32-bit words by word index (20_memory R50, R52): the words that differ from the fill
word, in rising order of index. The unit is the word because no narrower access exists (log 22). -/
abbrev Memory := List (Nat × Word)

/-- The IF/ID latch (R30). -/
structure IfId where
  instr : Word
  pcPlus1 : Int
deriving DecidableEq, Repr

/-- The ID/EX latch (R31). -/
structure IdEx where
  instr : Word
  pcPlus1 : Int
  readRegA : Word
  readRegB : Word
  offset : Int
deriving DecidableEq, Repr

/-- The EX/MEM latch (R32); `eq` is the machine's only condition flag (R28), and `storeData` is the
spec's own addition (D18, log 15). -/
structure ExMem where
  instr : Word
  branchTarget : Int
  eq : Bool
  aluResult : Word
  storeData : Word
deriving DecidableEq, Repr

/-- The MEM/WB latch (R33). -/
structure MemWb where
  instr : Word
  writeData : Word
deriving DecidableEq, Repr

/-- The WB/END latch (R34). -/
structure WbEnd where
  instr : Word
  writeData : Word
deriving DecidableEq, Repr

/-- The whole state (10_state section 1). `config` is the model's own field: the parameters of
00_scope R10, which no step changes (log 20). -/
structure State where
  config : Config
  /-- R20 -/
  reg : Regs
  /-- The next fetch address, a word index, an unbounded integer (R24, R25; D15, log 13). -/
  pc : Int
  /-- R27; unbounded (D20, log 18). -/
  cycles : Nat
  /-- R38 -/
  imem : Memory
  /-- R39 -/
  dmem : Memory
  ifid : IfId
  idex : IdEx
  exmem : ExMem
  memwb : MemWb
  wbend : WbEnd
deriving DecidableEq, Repr

/-- The launch state of a program loaded into these memories with these registers: `pc = 0`,
`cycles = 0`, every latch a NOOP with its other fields 0 (R41 to R44, R220).
DESIGN CHOICE of the spec: D2, D3 (log 9, log 10). -/
def State.launched (config : Config) (reg : Regs) (imem dmem : Memory) : State where
  config := config
  reg := reg
  pc := 0
  cycles := 0
  imem := imem
  dmem := dmem
  ifid := { instr := noopWord, pcPlus1 := 0 }
  idex := { instr := noopWord, pcPlus1 := 0, readRegA := 0, readRegB := 0, offset := 0 }
  exmem := { instr := noopWord, branchTarget := 0, eq := false, aluResult := 0, storeData := 0 }
  memwb := { instr := noopWord, writeData := 0 }
  wbend := { instr := noopWord, writeData := 0 }

/-- The machine right after reset, no program loaded: the launch state of the empty program under
the spec's defaults (R40 to R44, R223). Registers are 0: DESIGN CHOICE of the spec, unsafe (D1, log 8). -/
def State.reset : State := State.launched Config.default (Vector.replicate 8 0) [] []

/-- One reason of a model fault: the closed set of 60_exceptions R204. The set is the spec's own
decision (D16, log 14): the source gives these cases no outcome. -/
inductive FaultReason where
  /-- Raised by Writeback of an ADD or NOR whose destination index is 8 or more (R117). Safe: the
  machine stops where the source gives no outcome. -/
  | destOutOfRange (d : Nat)
  /-- Raised by the Memory stage of a LW or SW whose index is outside data memory (R58, R113). Safe. -/
  | dataOutOfRange (ea : Int)
  /-- Raised by Fetch in any cycle whose `pc` is outside instruction memory (R57, R103). Safe. -/
  | fetchOutOfRange (pc : Int)
deriving DecidableEq, Repr

/-- A model fault: why a step answers no next state. -/
inductive Fault where
  /-- Raised by any cycle in which at least one check fails. It carries every reason that failed,
  the oldest instruction's first, and no write of the cycle takes effect (R125, R205, R206). Safe. -/
  | raised (first : FaultReason) (rest : List FaultReason)
deriving DecidableEq, Repr

/-- Every reason a fault carries, the oldest instruction's first (R206). -/
def Fault.reasons : Fault → List FaultReason
  | .raised first rest => first :: rest

/-- Why an instruction has no meaning. No arm of `exec` answers one: the spec gives every word of
32 bits a defined outcome (30_encoding R85). -/
inductive Refusal where
  /-- An arm of `exec` whose instruction is not modelled yet. Raised by none. Safe. -/
  | notModelled (mnemonic : String)
deriving DecidableEq, Repr

/-- The state of the sequential reference machine, `T = {reg, pc, dmem}` (70_reset R230). -/
structure RefState where
  reg : Regs
  pc : Int
  dmem : Memory
deriving DecidableEq, Repr

/-- What one step of the sequential reference answers (R230). -/
inductive RefOutcome where
  /-- The next reference state. -/
  | next (t : RefState)
  /-- A HALT: the reference stops, `pc` not advanced (R180). -/
  | stop (t : RefState)
  /-- A model fault. -/
  | fault (r : FaultReason)
deriving DecidableEq, Repr

end Sys2Proof.Machine
end

