-- ==== Sys2Proof/Machine/Flags.lean ====
section
/-! DEFINITION. The machine's one condition flag (10_state R28): how Execute computes `EXMEM.eq`, and
what the Memory stage reads from it. ADD and NOR set no flag. -/

namespace Sys2Proof.Machine

/-- The equality flag: the two effective operands, all 32 bits (40_pipeline R110, 43_branch R170). -/
def equalityFlag (a b : Word) : Bool := a == b

end Sys2Proof.Machine
end

