-- ==== Sys2Proof/Machine/Ops.lean ====
section
/-! DEFINITION. The named operations over registers and memories, and the collection of a cycle's
model faults. The hardware takes no exception and returns from none (60_exceptions R200 to R203),
so there is no trap entry here: `Fault` is the end of a run, not a handler. -/

namespace Sys2Proof.Machine

/-- `S.reg[i]` (00_scope R16, 10_state R21). -/
def Regs.read (r : Regs) (i : Reg) : Word := r[i]

/-- The register file after a write of register `d`, an index that names a register only below 8
(40_pipeline R116, 30_encoding R79). r0 is written like any other (R20). -/
def Regs.write (r : Regs) (d : Nat) (v : Word) : Regs := if h : d < 8 then r.set d v h else r

/-- The index names a word of a memory of `n` words (20_memory R56). -/
def inRange (a : Int) (n : Nat) : Bool := decide (0 ≤ a ∧ a < (n : Int))

/-- The word at index `a`; an index the list does not name holds the fill word (R59). -/
def Memory.read (fill : Word) (m : Memory) (a : Nat) : Word :=
  match m with
  | [] => fill
  | (b, u) :: rest => if a = b then u else Memory.read fill rest a

/-- The memory with the word at index `a` set, in canonical form: writing the fill word removes the
entry. -/
def Memory.write (fill : Word) (m : Memory) (a : Nat) (v : Word) : Memory :=
  match m with
  | [] => if v = fill then [] else [(a, v)]
  | (b, u) :: rest =>
    if a < b then (if v = fill then (b, u) :: rest else (a, v) :: (b, u) :: rest)
    else if a = b then (if v = fill then rest else (a, v) :: rest)
    else (b, u) :: Memory.write fill rest a v

/-- The memory that holds the given words from index `a` on and the fill word elsewhere (70_reset R221). -/
def Memory.ofWords (fill : Word) (a : Nat) : List Word → Memory
  | [] => []
  | v :: rest => if v = fill then Memory.ofWords fill (a + 1) rest else (a, v) :: Memory.ofWords fill (a + 1) rest

/-- The canonical form from index `low` on: indices strictly rising and inside the memory, no entry
equal to the fill word. -/
def Memory.wfFrom (fill : Word) (size : Nat) (low : Nat) : Memory → Bool
  | [] => true
  | (b, u) :: rest => decide (low ≤ b) && decide (b < size) && u != fill && Memory.wfFrom fill size (b + 1) rest

/-- The canonical form of a memory of `size` words with the given fill word. -/
def Memory.wf (fill : Word) (size : Nat) (m : Memory) : Bool := Memory.wfFrom fill size 0 m

/-- `IFetch(a)` where it does not fault (00_scope R17). -/
def State.ifetch (s : State) (a : Int) : Word := Memory.read s.config.imemFill s.imem a.toNat

/-- `MemRead(a, 1)` where it does not fault (R17). -/
def State.memRead (s : State) (a : Int) : Word := Memory.read s.config.dmemFill s.dmem a.toNat

/-- Data memory after `MemWrite(a, 1, v)` where it does not fault (R17). -/
def State.memWrite (s : State) (a : Int) (v : Word) : Memory := Memory.write s.config.dmemFill s.dmem a.toNat v

/-- The range check of a fetch (R57). -/
def State.fetchFault (s : State) : List FaultReason :=
  if inRange s.pc s.config.imemWords then [] else [.fetchOutOfRange s.pc]

/-- The range check of a data access at index `ea` (R58). -/
def State.dataFault (s : State) (ea : Int) : List FaultReason :=
  if inRange ea s.config.dmemWords then [] else [.dataOutOfRange ea]

/-- Ends a cycle: with the reasons if there is one, else with the next state (R125, R205, R206). -/
def settle (reasons : List FaultReason) (s' : State) : Host.Outcome State Fault Refusal :=
  match reasons with
  | [] => .next s'
  | r :: rs => .fault (.raised r rs)

end Sys2Proof.Machine
end

