-- ==== Sys2Proof/Machine/Operands.lean ====
section
/-! DEFINITION. The operand forms, and the record of what the stages do with an instruction: one row
of the kind table of 30_encoding section 4 (R82 to R84) with its ALU function (40_pipeline R111). -/

namespace Sys2Proof.Machine

/-- The data access of the Memory stage (40_pipeline R113). -/
inductive Access where
  | none
  | read
  | write
deriving DecidableEq, Repr

/-- What each stage does with an instruction. -/
structure Path where
  /-- The register it writes (R82). -/
  dest : Option Nat
  /-- Field A is in `stallFields` (R83). -/
  stallA : Bool
  /-- Field B is in `stallFields` (R83). -/
  stallB : Bool
  /-- It receives forwarded operands in Execute (R84, R106). -/
  takesForwarding : Bool
  /-- It is a forwarding source while in EX/MEM: its result exists there (R108; D19, log 16). -/
  forwardsAlu : Bool
  /-- The ALU's function of the effective operands and the offset (R111). -/
  alu : Word → Word → Int → Word
  /-- The data access of the Memory stage (R113). -/
  access : Access
  /-- It is redirected by the equality flag in the Memory stage (R112). -/
  branches : Bool
  /-- It stops the run when it is in WB/END (R226). -/
  halts : Bool

/-- The destination index of ADD and NOR (30_encoding R79; D8, log 4). -/
def arithDest (c : Config) (f : BitVec 16) : Nat :=
  match c.arithDest with
  | .field16Fault => zext16 f
  | .low3 => zext16 f % 8

/-- The effective address of LW and SW: base plus offset, modulo 2^32 (42_memory_ops R162; D12, log 12). -/
def effectiveAddress (base : Word) (off : Int) : Word := base + wordOf off

/-- The branch target: the address after the branch plus the offset, an integer (43_branch R171). -/
def branchTargetOf (pcPlus1 : Int) (off : Int) : Int := pcPlus1 + off

/-- Whether a word with fields `a` and `b` and the given path compares one of them equal to a load's
destination (30_encoding R83, 40_pipeline R105). -/
def Path.stallsOn (p : Path) (a b : Reg) (d : Reg) : Bool := (p.stallA && a == d) || (p.stallB && b == d)

/-- One forwarding source applied to a consumer's two operands: field A and field B are matched
independently, and a match overwrites (40_pipeline R109). -/
def forwardFrom (a b : Reg) (ops : Word × Word) (dest : Option Nat) (v : Word) : Word × Word :=
  match dest with
  | none => ops
  | some d => (if a.val = d then v else ops.1, if b.val = d then v else ops.2)

end Sys2Proof.Machine
end

