-- ==== Sys2Proof/Machine/Paths.lean ====
section
/-! DEFINITION. The pipeline path of each instruction: one record per row of the opcode table, from
the "Pipeline path" of its rule (41_arithmetic R150, R151; 42_memory_ops R160, R161; 43_branch R170;
44 R180 to R182) and the kind table (30_encoding R82 to R84). The ALU result of a kind that is not
an ALU operation is 0 (40_pipeline R111; D11, log 11). -/

namespace Sys2Proof.Machine

/-- ADD (R150): addition modulo 2^32. -/
def addPath (c : Config) (dest : BitVec 16) : Path where
  dest := some (arithDest c dest)
  stallA := true
  stallB := true
  takesForwarding := true
  forwardsAlu := true
  alu a b _ := a + b
  access := .none
  branches := false
  halts := false

/-- NOR (R151): bitwise not-or. -/
def norPath (c : Config) (dest : BitVec 16) : Path where
  dest := some (arithDest c dest)
  stallA := true
  stallB := true
  takesForwarding := true
  forwardsAlu := true
  alu a b _ := ~~~(a ||| b)
  access := .none
  branches := false
  halts := false

/-- LW (R160): writes field B, so only field A is stall-checked; it forwards nothing from EX/MEM. -/
def lwPath (rB : Reg) : Path where
  dest := some rB.val
  stallA := true
  stallB := false
  takesForwarding := true
  forwardsAlu := false
  alu a _ off := effectiveAddress a off
  access := .read
  branches := false
  halts := false

/-- SW (R161): field B is its data register. -/
def swPath : Path where
  dest := none
  stallA := true
  stallB := true
  takesForwarding := true
  forwardsAlu := false
  alu a _ off := effectiveAddress a off
  access := .write
  branches := false
  halts := false

/-- BEQ (R170). -/
def beqPath : Path where
  dest := none
  stallA := true
  stallB := true
  takesForwarding := true
  forwardsAlu := false
  alu _ _ _ := 0
  access := .none
  branches := true
  halts := false

/-- Opcode 5 (R182): it takes forwarding, and nothing reads the result. -/
def unrecOp5Path (c : Config) : Path where
  dest := none
  stallA := c.stallCheckNonreaders
  stallB := c.stallCheckNonreaders
  takesForwarding := true
  forwardsAlu := false
  alu _ _ _ := 0
  access := .none
  branches := false
  halts := false

/-- HALT (R180): it takes no forwarding, and stops the run from WB/END. -/
def haltPath (c : Config) : Path where
  dest := none
  stallA := c.stallCheckNonreaders
  stallB := c.stallCheckNonreaders
  takesForwarding := false
  forwardsAlu := false
  alu _ _ _ := 0
  access := .none
  branches := false
  halts := true

/-- NOOP (R181): it takes no forwarding. -/
def noopPath (c : Config) : Path where
  dest := none
  stallA := c.stallCheckNonreaders
  stallB := c.stallCheckNonreaders
  takesForwarding := false
  forwardsAlu := false
  alu _ _ _ := 0
  access := .none
  branches := false
  halts := false

/-- A word with bits 31:25 set (R182): it takes forwarding, and nothing reads the result. -/
def unrecHighPath (c : Config) : Path where
  dest := none
  stallA := c.stallCheckNonreaders
  stallB := c.stallCheckNonreaders
  takesForwarding := true
  forwardsAlu := false
  alu _ _ _ := 0
  access := .none
  branches := false
  halts := false

/-- The one authoritative table of 30_encoding section 4: every stage consults it. -/
def pathOf (c : Config) : Instr → Path
  | .add _ _ _ dest => addPath c dest
  | .nor _ _ _ dest => norPath c dest
  | .lw _ _ rB _ => lwPath rB
  | .sw .. => swPath
  | .beq .. => beqPath
  | .unrecOp5 .. => unrecOp5Path c
  | .halt .. => haltPath c
  | .noop .. => noopPath c
  | .unrecHigh .. => unrecHighPath c

/-- The path of a word. -/
def wordPath (c : Config) (w : Word) : Path := pathOf c (decode c.highBits w)

/-- `dest(w)` (R82). -/
def destOf (c : Config) (w : Word) : Option Nat := (wordPath c w).dest

/-- A word in Decode compares a field equal to the destination of a load (R83, R105). -/
def stallChecks (c : Config) (w : Word) (d : Reg) : Bool := (wordPath c w).stallsOn (fieldA w) (fieldB w) d

end Sys2Proof.Machine
end

