-- ==== Sys2Proof/Machine/Pipeline.lean ====
section
/-! DEFINITION. One cycle of the machine (40_pipeline R100 to R126). Every stage reads the state `s`
from before the cycle and proposes one latch of the next state; `advance` assembles it and `cycle`
adds the faults. The word fetched is an argument, so that a cycle can be read as the one that issues
a given instruction; `Machine.step` supplies the word at `pc`. -/

namespace Sys2Proof.Machine

/-! ## Decode and the load-use stall (R104, R105) -/

/-- The ID/EX candidate `D` (R104): both operand registers are read whatever the kind. -/
def State.decodeStage (s : State) : IdEx where
  instr := s.ifid.instr
  pcPlus1 := s.ifid.pcPlus1
  readRegA := s.reg.read (fieldA s.ifid.instr)
  readRegB := s.reg.read (fieldB s.ifid.instr)
  offset := sext16 (field16 s.ifid.instr)

/-- The `stall` signal (R105): a LW in ID/EX, and a word in IF/ID that stall-checks its destination. -/
def State.stall (s : State) : Bool :=
  (kindOf s.config.highBits s.idex.instr == .LW) && stallChecks s.config s.ifid.instr (fieldB s.idex.instr)

/-! ## Execute and the forwarding multiplexer (R106 to R111) -/

/-- The operands forwarded to the word in ID/EX: WB/END first, then MEM/WB, then EX/MEM, a later match
overwriting an earlier one, so that the nearest producer wins (R107 to R109). -/
def State.forwarded (s : State) : Word × Word :=
  let a := fieldA s.idex.instr
  let b := fieldB s.idex.instr
  let ops₀ := (s.idex.readRegA, s.idex.readRegB)
  let ops₁ := forwardFrom a b ops₀ (destOf s.config s.wbend.instr) s.wbend.writeData
  let ops₂ := forwardFrom a b ops₁ (destOf s.config s.memwb.instr) s.memwb.writeData
  if (wordPath s.config s.exmem.instr).forwardsAlu then
    forwardFrom a b ops₂ (destOf s.config s.exmem.instr) s.exmem.aluResult
  else ops₂

/-- The effective operands of Execute (R106): a HALT or NOOP takes no forwarding. -/
def State.operands (s : State) : Word × Word :=
  if (wordPath s.config s.idex.instr).takesForwarding then s.forwarded
  else (s.idex.readRegA, s.idex.readRegB)

/-- The EX/MEM candidate `X` (R110, R111). -/
def State.executeStage (s : State) : ExMem where
  instr := s.idex.instr
  branchTarget := branchTargetOf s.idex.pcPlus1 s.idex.offset
  eq := equalityFlag s.operands.1 s.operands.2
  aluResult := (wordPath s.config s.idex.instr).alu s.operands.1 s.operands.2 s.idex.offset
  storeData := s.operands.2

/-! ## Memory and branch resolution (R112 to R115) -/

/-- The `taken` signal: the word entering Memory is a BEQ and its flag is set (R112). -/
def State.taken (s : State) : Bool := (wordPath s.config s.exmem.instr).branches && s.exmem.eq

/-- The word index of the Memory stage's access (R113). -/
def State.ea (s : State) : Int := signed s.exmem.aluResult

/-- The access of the word entering Memory (R113). -/
def State.access (s : State) : Access := (wordPath s.config s.exmem.instr).access

/-- The Memory stage's fault: a LW or SW out of range (R58, R113). -/
def State.memoryFault (s : State) : List FaultReason :=
  match s.access with
  | .none => []
  | .read => s.dataFault s.ea
  | .write => s.dataFault s.ea

/-- The MEM/WB candidate `M` (R114): the loaded word for a LW, else the ALU result (D11, log 11). -/
def State.memoryStage (s : State) : MemWb where
  instr := s.exmem.instr
  writeData :=
    match s.access with
    | .read => s.memRead s.ea
    | .none => s.exmem.aluResult
    | .write => s.exmem.aluResult

/-- Data memory after the cycle: changed by a SW only (R113). -/
def State.nextDmem (s : State) : Memory :=
  match s.access with
  | .write => s.memWrite s.ea s.exmem.storeData
  | .none => s.dmem
  | .read => s.dmem

/-! ## Writeback and Retire (R116 to R118) -/

/-- Writeback's fault: a destination that is no register (R117). -/
def State.writebackFault (s : State) : List FaultReason :=
  match destOf s.config s.memwb.instr with
  | none => []
  | some d => if d < 8 then [] else [.destOutOfRange d]

/-- The register file after the cycle (R116). -/
def State.nextReg (s : State) : Regs :=
  match destOf s.config s.memwb.instr with
  | none => s.reg
  | some d => s.reg.write d s.memwb.writeData

/-- The next WB/END latch `W` (R118). -/
def State.retireStage (s : State) : WbEnd where
  instr := s.memwb.instr
  writeData := s.memwb.writeData

/-! ## Assembling the next state (R119 to R124) -/

/-- The number of squashed instructions of the cycle (R124). -/
def State.squashDepth (s : State) : Nat := if s.taken then 3 else 0

/-- The next IF/ID latch: held by a stall, voided by a squash (R119 to R121, R123). -/
def State.nextIfid (s : State) (fetched : Word) : IfId :=
  let l : IfId := if s.stall then s.ifid else { instr := fetched, pcPlus1 := s.pc + 1 }
  if s.taken then { l with instr := noopWord } else l

/-- The next ID/EX latch: voided by a stall and by a squash (R119 to R121, R123). -/
def State.nextIdex (s : State) : IdEx :=
  if s.taken || s.stall then { s.decodeStage with instr := noopWord } else s.decodeStage

/-- The next EX/MEM latch: voided by a squash (R119, R121). -/
def State.nextExmem (s : State) : ExMem :=
  if s.taken then { s.executeStage with instr := noopWord } else s.executeStage

/-- The next program counter (R122): the branch target, else the frozen pc, else the next word. -/
def State.nextPc (s : State) : Int :=
  if s.taken then s.exmem.branchTarget else if s.stall then s.pc else s.pc + 1

/-- The next state of a cycle that fetched `fetched` and raised no fault (R100, R126). -/
def State.advance (s : State) (fetched : Word) : State where
  config := s.config
  reg := s.nextReg
  pc := s.nextPc
  cycles := s.cycles + 1
  imem := s.imem
  dmem := s.nextDmem
  ifid := s.nextIfid fetched
  idex := s.nextIdex
  exmem := s.nextExmem
  memwb := s.memoryStage
  wbend := s.retireStage

/-- The faults of the stages behind Fetch, the oldest instruction's first (R125, R206). -/
def State.stageFaults (s : State) : List FaultReason := s.writebackFault ++ s.memoryFault

/-- The cycle whose fetched word is `fetched`: the whole of R126, Fetch's own range check left to
`Machine.step`. -/
def cycle (fetched : Word) (s : State) : Host.Outcome State Fault Refusal :=
  settle s.stageFaults (s.advance fetched)

/-- The cycle whose fetch is out of range: no next state; Fetch's reason comes last, as the youngest
instruction's (R57, R103, R125, R206). The word is unused: the cycle faults. -/
def cycleWithoutFetch (s : State) : Host.Outcome State Fault Refusal :=
  settle (s.stageFaults ++ s.fetchFault) (s.advance noopWord)

/-- The halt test: the word in WB/END is a HALT (70_reset R226). -/
def State.halted (s : State) : Bool := (wordPath s.config s.wbend.instr).halts

end Sys2Proof.Machine
end

