-- ==== Sys2Proof/Machine/Arithmetic.lean ====
section
/-! DEFINITION. ADD and NOR (41_arithmetic R150, R151): the cycle that issues each (log 21; its path
through the later stages is `addPath`, `norPath`), and its sequential effect (70_reset R230). -/

namespace Sys2Proof.Machine

/-- ADD enters the pipeline: the cycle that fetches it (R102, R126, R150). -/
def execAdd (hi : BitVec 7) (rA rB : Reg) (dest : BitVec 16) (s : State) : Host.Outcome State Fault Refusal :=
  cycle (encode (.add hi rA rB dest)) s

/-- NOR enters the pipeline: the cycle that fetches it (R102, R126, R151). -/
def execNor (hi : BitVec 7) (rA rB : Reg) (dest : BitVec 16) (s : State) : Host.Outcome State Fault Refusal :=
  cycle (encode (.nor hi rA rB dest)) s

/-- The reference writes register `d` and goes on to the next word (R150, R151). -/
def RefState.writeReg (t : RefState) (d : Nat) (v : Word) : RefOutcome :=
  if d < 8 then .next { t with reg := t.reg.write d v, pc := t.pc + 1 } else .fault (.destOutOfRange d)

/-- The sequential effect of ADD (R150). -/
def seqAdd (c : Config) (rA rB : Reg) (dest : BitVec 16) (t : RefState) : RefOutcome :=
  t.writeReg (arithDest c dest) (t.reg.read rA + t.reg.read rB)

/-- The sequential effect of NOR (R151). -/
def seqNor (c : Config) (rA rB : Reg) (dest : BitVec 16) (t : RefState) : RefOutcome :=
  t.writeReg (arithDest c dest) (~~~(t.reg.read rA ||| t.reg.read rB))

end Sys2Proof.Machine
end

