-- ==== Sys2Proof/Machine/Branch.lean ====
section
/-! DEFINITION. BEQ (43_branch R170 to R173): the cycle that issues it (log 21; its path through the
later stages is `beqPath`), and its sequential effect (70_reset R230). -/

namespace Sys2Proof.Machine

/-- BEQ enters the pipeline: the cycle that fetches it (R102, R126, R170). -/
def execBeq (hi : BitVec 7) (rA rB : Reg) (off : BitVec 16) (s : State) : Host.Outcome State Fault Refusal :=
  cycle (encode (.beq hi rA rB off)) s

/-- The sequential effect of BEQ (R170, R171). -/
def seqBeq (rA rB : Reg) (off : BitVec 16) (t : RefState) : RefOutcome :=
  if equalityFlag (t.reg.read rA) (t.reg.read rB) then .next { t with pc := branchTargetOf (t.pc + 1) (sext16 off) }
  else .next { t with pc := t.pc + 1 }

end Sys2Proof.Machine
end

