-- ==== Sys2Proof/Machine/LoadStore.lean ====
section
/-! DEFINITION. LW and SW (42_memory_ops R160 to R162): the cycle that issues each (log 21; its path
through the later stages is `lwPath`, `swPath`), and its sequential effect (70_reset R230). -/

namespace Sys2Proof.Machine

/-- LW enters the pipeline: the cycle that fetches it (R102, R126, R160). -/
def execLw (hi : BitVec 7) (rA rB : Reg) (off : BitVec 16) (s : State) : Host.Outcome State Fault Refusal :=
  cycle (encode (.lw hi rA rB off)) s

/-- SW enters the pipeline: the cycle that fetches it (R102, R126, R161). -/
def execSw (hi : BitVec 7) (rA rB : Reg) (off : BitVec 16) (s : State) : Host.Outcome State Fault Refusal :=
  cycle (encode (.sw hi rA rB off)) s

/-- The word index of a LW or SW with base `rA` in the reference (R160 to R162). -/
def RefState.ea (t : RefState) (rA : Reg) (off : BitVec 16) : Int :=
  signed (effectiveAddress (t.reg.read rA) (sext16 off))

/-- The sequential effect of LW (R160). -/
def seqLw (c : Config) (rA rB : Reg) (off : BitVec 16) (t : RefState) : RefOutcome :=
  if inRange (t.ea rA off) c.dmemWords then
    .next { t with reg := t.reg.write rB.val (Memory.read c.dmemFill t.dmem (t.ea rA off).toNat), pc := t.pc + 1 }
  else .fault (.dataOutOfRange (t.ea rA off))

/-- The sequential effect of SW (R161). -/
def seqSw (c : Config) (rA rB : Reg) (off : BitVec 16) (t : RefState) : RefOutcome :=
  if inRange (t.ea rA off) c.dmemWords then
    .next { t with dmem := Memory.write c.dmemFill t.dmem (t.ea rA off).toNat (t.reg.read rB), pc := t.pc + 1 }
  else .fault (.dataOutOfRange (t.ea rA off))

end Sys2Proof.Machine
end

