-- ==== Sys2Proof/Machine/System.lean ====
section
/-! DEFINITION. HALT, NOOP and the unrecognised words (44 R180 to R182): the cycle that issues each
(log 21; their paths through the later stages are `haltPath`, `noopPath`, `unrecOp5Path`,
`unrecHighPath`), and their sequential effects (70_reset R230). -/

namespace Sys2Proof.Machine

/-- HALT enters the pipeline: the cycle that fetches it (R102, R126, R180). It does not stop Fetch;
the run stops when it is in WB/END (`State.halted`). -/
def execHalt (hi : BitVec 7) (rA rB : Reg) (f16 : BitVec 16) (s : State) : Host.Outcome State Fault Refusal :=
  cycle (encode (.halt hi rA rB f16)) s

/-- NOOP enters the pipeline: the cycle that fetches it (R102, R126, R181). -/
def execNoop (hi : BitVec 7) (rA rB : Reg) (f16 : BitVec 16) (s : State) : Host.Outcome State Fault Refusal :=
  cycle (encode (.noop hi rA rB f16)) s

/-- A word of opcode 5 enters the pipeline (R102, R126, R182). -/
def execUnrecOp5 (hi : BitVec 7) (rA rB : Reg) (f16 : BitVec 16) (s : State) : Host.Outcome State Fault Refusal :=
  cycle (encode (.unrecOp5 hi rA rB f16)) s

/-- A word with bits 31:25 set enters the pipeline (R102, R126, R182). -/
def execUnrecHigh (hi : BitVec 7) (op : BitVec 3) (rA rB : Reg) (f16 : BitVec 16) (s : State) :
    Host.Outcome State Fault Refusal :=
  cycle (encode (.unrecHigh hi op rA rB f16)) s

/-- The sequential effect of HALT: stop, `pc` not advanced (R180). -/
def seqHalt (t : RefState) : RefOutcome := .stop t

/-- The sequential effect of NOOP (R181). -/
def seqNoop (t : RefState) : RefOutcome := .next { t with pc := t.pc + 1 }

/-- The sequential effect of opcode 5 (R182). -/
def seqUnrecOp5 (t : RefState) : RefOutcome := .next { t with pc := t.pc + 1 }

/-- The sequential effect of a word with bits 31:25 set (R182). -/
def seqUnrecHigh (t : RefState) : RefOutcome := .next { t with pc := t.pc + 1 }

end Sys2Proof.Machine
end

