-- ==== Sys2Proof/Machine/Dispatch.lean ====
section
/-! DEFINITION. The meaning of an instruction at a state: the cycle in which it enters the pipeline,
every older instruction in flight doing its own stage's work in the same cycle (40_pipeline R100,
R101; log 21). -/

namespace Sys2Proof.Machine

def exec (i : Instr) (s : State) : Host.Outcome State Fault Refusal :=
  match i with
  | .add hi rA rB dest => Sys2Proof.Machine.execAdd hi rA rB dest s
  | .nor hi rA rB dest => Sys2Proof.Machine.execNor hi rA rB dest s
  | .lw hi rA rB off => Sys2Proof.Machine.execLw hi rA rB off s
  | .sw hi rA rB off => Sys2Proof.Machine.execSw hi rA rB off s
  | .beq hi rA rB off => Sys2Proof.Machine.execBeq hi rA rB off s
  | .unrecOp5 hi rA rB f16 => Sys2Proof.Machine.execUnrecOp5 hi rA rB f16 s
  | .halt hi rA rB f16 => Sys2Proof.Machine.execHalt hi rA rB f16 s
  | .noop hi rA rB f16 => Sys2Proof.Machine.execNoop hi rA rB f16 s
  | .unrecHigh hi op rA rB f16 => Sys2Proof.Machine.execUnrecHigh hi op rA rB f16 s

end Sys2Proof.Machine
end

