-- ==== Sys2Proof/Machine/Step.lean ====
section
/-! DEFINITION. One step of the machine: one cycle (40_pipeline R100, R126), unless a HALT has retired
(70_reset R225). -/

namespace Sys2Proof.Machine

/-- One step. A state whose WB/END holds a HALT is final: the machine takes no further cycle and the
state stays as it is (R215, R227; log 19). Otherwise the word at `pc` is fetched and the cycle is
the one that issues it, or, where `pc` is outside instruction memory, the cycle faults (R57). -/
def step (s : State) : Host.Outcome State Fault Refusal :=
  if s.halted then .next s
  else if inRange s.pc s.config.imemWords then exec (decode s.config.highBits (s.ifetch s.pc)) s
  else cycleWithoutFetch s

/-- The state with the word `w` (of `nbits` bits, the bits above them 0) in instruction memory at `pc`,
where the next step fetches; a `pc` outside instruction memory names no word, and nothing changes
(log 23). -/
def State.withFetchWord (s : State) (nbits w : Nat) : State :=
  if inRange s.pc s.config.imemWords then
    { s with imem := Memory.write s.config.imemFill s.imem s.pc.toNat (BitVec.ofNat 32 (w % 2 ^ nbits)) }
  else s

end Sys2Proof.Machine
end

