-- ==== Sys2Proof/Machine/Load.lean ====
section
/-! DEFINITION. Program load and the launch state (70_reset R220 to R224). -/

namespace Sys2Proof.Machine

/-- Why a load fails: no launch state, and the machine never runs (R222, R223; D27). -/
inductive LoadError where
  /-- A line is not hexadecimal. -/
  | notHexadecimal
  /-- A line's value does not fit in 32 bits. -/
  | lineTooWide
  /-- More lines than instruction memory has words. -/
  | programTooLong
  /-- The initial image is longer than data memory; under the default mirror it is the program. -/
  | dataImageTooLong
deriving DecidableEq, Repr

/-- The value of a hexadecimal digit, of either case (log 25). -/
def hexDigit (ch : Char) : Option Nat :=
  if '0' ≤ ch ∧ ch ≤ '9' then some (ch.toNat - '0'.toNat)
  else if 'a' ≤ ch ∧ ch ≤ 'f' then some (ch.toNat - 'a'.toNat + 10)
  else if 'A' ≤ ch ∧ ch ≤ 'F' then some (ch.toNat - 'A'.toNat + 10)
  else none

/-- The value of a run of hexadecimal digits behind a value already read: the first digit is the most
significant (20_memory R53, D23). -/
def hexValue (acc : Nat) : List Char → Option Nat
  | [] => some acc
  | ch :: rest =>
    match hexDigit ch with
    | none => none
    | some d => hexValue (16 * acc + d) rest

/-- One program line: a hexadecimal numeral of one 32-bit word (R221, R222). An empty line is not
hexadecimal (log 25). -/
def parseLine (line : List Char) : Except LoadError Word :=
  match line with
  | [] => .error .notHexadecimal
  | line =>
    match hexValue 0 line with
    | none => .error .notHexadecimal
    | some n => if n < 2 ^ 32 then .ok (BitVec.ofNat 32 n) else .error .lineTooWide

/-- The words of a program text, or the first line's failure (R222). -/
def parseLines : List (List Char) → Except LoadError (List Word)
  | [] => .ok []
  | line :: rest =>
    match parseLine line with
    | .error e => .error e
    | .ok w =>
      match parseLines rest with
      | .error e => .error e
      | .ok ws => .ok (w :: ws)

/-- The launch parameters (00_scope R10): those a cycle consults, and those only the load reads. -/
structure LaunchParams where
  config : Config
  /-- REG_INIT, OPEN (R40, D1). -/
  regInit : Regs
  /-- DMEM_INIT, OPEN (R221, D17): `none` is the default, the mirror of the program; `some image` is an
  override, the image from index 0 on and DMEM_FILL behind it (log 24). -/
  dmemInit : Option (List Word)
deriving DecidableEq, Repr

/-- The spec's defaults (R10). -/
def LaunchParams.default : LaunchParams where
  config := Config.default
  regInit := Vector.replicate 8 0
  dmemInit := none

/-- Program load from the words of the program (R220, R221, R223). -/
def launch (p : LaunchParams) (program : List Word) : Except LoadError State :=
  let image := p.dmemInit.getD program
  if p.config.imemWords < program.length then .error .programTooLong
  else if p.config.dmemWords < image.length then .error .dataImageTooLong
  else .ok (State.launched p.config p.regInit (Memory.ofWords p.config.imemFill 0 program)
    (Memory.ofWords p.config.dmemFill 0 image))

/-- Program load from the lines of the program text (R221, R222). -/
def load (p : LaunchParams) (lines : List (List Char)) : Except LoadError State :=
  match parseLines lines with
  | .error e => .error e
  | .ok program => launch p program

end Sys2Proof.Machine
end

