-- ==== Sys2Proof/Machine/Reference.lean ====
section
/-! DEFINITION. The sequential reference machine (70_reset R230): one instruction at a time, each by the
"Sequential effect" of its rule; with the three counts of the cycle formula (R233). -/

namespace Sys2Proof.Machine

/-- The sequential effect of an instruction at a reference state (R230). -/
def seqExec (c : Config) (i : Instr) (t : RefState) : RefOutcome :=
  match i with
  | .add _ rA rB dest => seqAdd c rA rB dest t
  | .nor _ rA rB dest => seqNor c rA rB dest t
  | .lw _ rA rB off => seqLw c rA rB off t
  | .sw _ rA rB off => seqSw c rA rB off t
  | .beq _ rA rB off => seqBeq rA rB off t
  | .unrecOp5 .. => seqUnrecOp5 t
  | .halt .. => seqHalt t
  | .noop .. => seqNoop t
  | .unrecHigh .. => seqUnrecHigh t

/-- The word at index `a` of instruction memory, for the reference. -/
def fetchWord (c : Config) (imem : Memory) (a : Int) : Word := Memory.read c.imemFill imem a.toNat

/-- `seqStep(T)` over the instruction memory `imem` (R230). -/
def seqStep (c : Config) (imem : Memory) (t : RefState) : RefOutcome :=
  if inRange t.pc c.imemWords then seqExec c (decode c.highBits (fetchWord c imem t.pc)) t
  else .fault (.fetchOutOfRange t.pc)

/-- A run of the reference so far: its state and the counts of R233. -/
structure RefRun where
  state : RefState
  /-- N: the instructions executed. -/
  executed : Nat
  /-- S: the load-use stalls among them. -/
  stalls : Nat
  /-- T: the taken branches among them. -/
  taken : Nat
deriving DecidableEq, Repr

/-- The start of a run of the reference. -/
def RefRun.start (t : RefState) : RefRun where
  state := t
  executed := 0
  stalls := 0
  taken := 0

/-- The instruction `w` is a LW and the next one executed stall-checks its destination (R233, S). -/
def costsStall (c : Config) (w next : Word) : Bool :=
  (kindOf c.highBits w == .LW) && stallChecks c next (fieldB w)

/-- The instruction `w` is a BEQ whose operands are equal at `t` (R233, T). -/
def costsSquash (c : Config) (w : Word) (t : RefState) : Bool :=
  (kindOf c.highBits w == .BEQ) && equalityFlag (t.reg.read (fieldA w)) (t.reg.read (fieldB w))

/-- The run after one more instruction, which took the reference from `r.state` to `t'` (R233). -/
def RefRun.after (c : Config) (imem : Memory) (r : RefRun) (t' : RefState) : RefRun where
  state := t'
  executed := r.executed + 1
  stalls := r.stalls + (if costsStall c (fetchWord c imem r.state.pc) (fetchWord c imem t'.pc) then 1 else 0)
  taken := r.taken + (if costsSquash c (fetchWord c imem r.state.pc) r.state then 1 else 0)

/-- How a run of the reference ends. -/
inductive RefResult where
  /-- It stopped at a HALT; the counts leave the HALT out. -/
  | stopped (r : RefRun)
  /-- A model fault. -/
  | faulted (r : RefRun) (reason : FaultReason)
  /-- Neither within the bound. -/
  | running (r : RefRun)
deriving DecidableEq, Repr

/-- At most `n` steps of the reference (R230, R231). -/
def seqRun (c : Config) (imem : Memory) : Nat → RefRun → RefResult
  | 0, r => .running r
  | n + 1, r =>
    match seqStep c imem r.state with
    | .next t' => seqRun c imem n (r.after c imem t')
    | .stop _ => .stopped r
    | .fault reason => .faulted r reason

end Sys2Proof.Machine
end

