-- ==== Sys2Proof/Machine/Run.lean ====
section
/-! DEFINITION. The run loop (70_reset R225 to R229): cycles until a HALT retires or a cycle faults.
The step bound is the model's argument, since the hardware has no cycle limit (D21, log 28). -/

namespace Sys2Proof.Machine

/-- `n` steps one after another, ending at the first fault. -/
def steps : Nat → State → Host.Outcome State Fault Refusal
  | 0, s => .next s
  | n + 1, s =>
    match step s with
    | .next s' => steps n s'
    | .fault f => .fault f
    | .refused r => .refused r

/-- How a run ends (R225, R229, R232). -/
inductive RunResult where
  /-- The final state: the first one whose WB/END holds a HALT (R227). -/
  | halted (s : State)
  /-- A cycle faulted; `s` is the state before it (60_exceptions R205). -/
  | faulted (s : State) (f : Fault)
  /-- The bound was reached: neither a halt nor a fault (R229). -/
  | noHalt (s : State)
deriving DecidableEq, Repr

/-- The run loop with at most `n` cycles: the halt test before every cycle (R225, R226). No step
answers a refusal; the arm is there for totality. -/
def run : Nat → State → RunResult
  | 0, s => if s.halted then .halted s else .noHalt s
  | n + 1, s =>
    if s.halted then .halted s
    else
      match step s with
      | .next s' => run n s'
      | .fault f => .faulted s f
      | .refused _ => .noHalt s

end Sys2Proof.Machine
end

