-- ==== Sys2Proof/Machine/Report.lean ====
section
/-! DEFINITION. What the host observes: the per-cycle trace and the final report (70_reset R232, R234),
which read a latch field only where it is meaningful (10_state R36, D24), and the display of a word
(30_encoding R87, R89). Observing changes no state. -/

namespace Sys2Proof.Machine

/-- A field's value where it is meaningful, the neutral placeholder `none` elsewhere (R36, R234). -/
def shown {α : Type} (meaningful : Bool) (v : α) : Option α := if meaningful then some v else none

/-- IF/ID as observed. -/
structure IfIdView where
  instr : Word
  pcPlus1 : Option Int
deriving DecidableEq, Repr

/-- ID/EX as observed. -/
structure IdExView where
  instr : Word
  pcPlus1 : Option Int
  readRegA : Option Word
  readRegB : Option Word
  offset : Option Int
deriving DecidableEq, Repr

/-- EX/MEM as observed. -/
structure ExMemView where
  instr : Word
  branchTarget : Option Int
  eq : Option Bool
  aluResult : Option Word
  storeData : Option Word
deriving DecidableEq, Repr

/-- MEM/WB or WB/END as observed. -/
structure WriteView where
  instr : Word
  writeData : Option Word
deriving DecidableEq, Repr

/-- One row of the trace (R234). -/
structure Observation where
  cycles : Nat
  pc : Int
  dmem : Memory
  reg : Regs
  ifid : IfIdView
  idex : IdExView
  exmem : ExMemView
  memwb : WriteView
  wbend : WriteView
deriving DecidableEq, Repr

/-- The table of 10_state R36: `readRegA` is read for these kinds. -/
def readsA : Kind → Bool
  | .ADD | .NOR | .LW | .SW | .BEQ => true
  | .HALT | .NOOP | .UNREC => false

/-- R36: `readRegB`. -/
def readsB : Kind → Bool
  | .ADD | .NOR | .SW | .BEQ => true
  | .LW | .HALT | .NOOP | .UNREC => false

/-- R36: `offset`. -/
def readsOffset : Kind → Bool
  | .LW | .SW | .BEQ => true
  | .ADD | .NOR | .HALT | .NOOP | .UNREC => false

/-- R36: `aluResult`. -/
def readsAlu : Kind → Bool
  | .ADD | .NOR | .LW | .SW => true
  | .BEQ | .HALT | .NOOP | .UNREC => false

/-- R36: `writeData`. -/
def writes : Kind → Bool
  | .ADD | .NOR | .LW => true
  | .SW | .BEQ | .HALT | .NOOP | .UNREC => false

/-- What the trace shows of a state (R234, R36). -/
def State.observe (s : State) : Observation :=
  let kind := kindOf s.config.highBits
  { cycles := s.cycles
    pc := s.pc
    dmem := s.dmem
    reg := s.reg
    ifid := { instr := s.ifid.instr, pcPlus1 := shown (kind s.ifid.instr == .BEQ) s.ifid.pcPlus1 }
    idex :=
      { instr := s.idex.instr
        pcPlus1 := shown (kind s.idex.instr == .BEQ) s.idex.pcPlus1
        readRegA := shown (readsA (kind s.idex.instr)) s.idex.readRegA
        readRegB := shown (readsB (kind s.idex.instr)) s.idex.readRegB
        offset := shown (readsOffset (kind s.idex.instr)) s.idex.offset }
    exmem :=
      { instr := s.exmem.instr
        branchTarget := shown (kind s.exmem.instr == .BEQ) s.exmem.branchTarget
        eq := shown (kind s.exmem.instr == .BEQ) s.exmem.eq
        aluResult := shown (readsAlu (kind s.exmem.instr)) s.exmem.aluResult
        storeData := shown (kind s.exmem.instr == .SW) s.exmem.storeData }
    memwb := { instr := s.memwb.instr, writeData := shown (writes (kind s.memwb.instr)) s.memwb.writeData }
    wbend := { instr := s.wbend.instr, writeData := shown (writes (kind s.wbend.instr)) s.wbend.writeData } }

/-- The trace of at most `n` cycles: one row for every state the run loop tests, before its cycle; the
final state is one of them (R234, D28). -/
def trace : Nat → State → List Observation
  | 0, s => [s.observe]
  | n + 1, s =>
    if s.halted then [s.observe]
    else
      match step s with
      | .next s' => s.observe :: trace n s'
      | .fault _ => [s.observe]
      | .refused _ => [s.observe]

/-- The final report (R232, D28): the last state as observed, and the reasons of a faulted run. -/
inductive Report where
  /-- Emitted once, after halt: cycles, registers, data memory, pc and the five latches. -/
  | final (o : Observation)
  /-- The reasons, and the state before the faulting cycle. -/
  | fault (reasons : List FaultReason) (o : Observation)
  /-- The bound was reached. -/
  | noHalt (o : Observation)
deriving DecidableEq, Repr

/-- The report of a run (R232). -/
def RunResult.report : RunResult → Report
  | .halted s => .final s.observe
  | .faulted s f => .fault f.reasons s.observe
  | .noHalt s => .noHalt s.observe

/-- The operands of the assembly form in field order A, B, 16-bit field (R87). -/
def renderOperands (name : String) (a b : Reg) (last : String) : String :=
  name ++ " r" ++ toString a.val ++ ",r" ++ toString b.val ++ "," ++ last

/-- The eight hexadecimal digits of a word, the most significant first (R53). -/
def renderRaw (w : Word) : String :=
  "0x" ++ String.ofList ((List.range 8).map fun k => Nat.digitChar (w.toNat / 16 ^ (7 - k) % 16))

/-- The destination of ADD and NOR as displayed: the register it names, else the bare index (R87). -/
def renderDest (f : BitVec 16) : String :=
  if zext16 f < 8 then "r" ++ toString (zext16 f) else toString (zext16 f)

/-- A word's display: a recognised kind in the assembly form of R87, an unrecognised word as its raw
value (R89). Total, and it changes nothing. -/
def renderWord (p : HighBitsPolicy) (w : Word) : String :=
  match decode p w with
  | .add _ a b f => renderOperands "ADD" a b (renderDest f)
  | .nor _ a b f => renderOperands "NOR" a b (renderDest f)
  | .lw _ a b f => renderOperands "LW" a b (toString (sext16 f))
  | .sw _ a b f => renderOperands "SW" a b (toString (sext16 f))
  | .beq _ a b f => renderOperands "BEQ" a b (toString (sext16 f))
  | .halt .. => "HALT"
  | .noop .. => "NOOP"
  | .unrecOp5 .. | .unrecHigh .. => renderRaw w

end Sys2Proof.Machine
end

