-- ==== Sys2Proof/Safety.lean ====
section
/-! DEFINITION. The terms the statements use: the invariant that every step keeps, an idle pipeline,
and the register file as the older instructions will leave it. -/

namespace Sys2Proof.Machine

/-- What every step keeps, and what holds at reset and at every launch. -/
structure State.Inv (s : State) : Prop where
  /-- Instruction memory is in canonical form. -/
  imemCanonical : Memory.wf s.config.imemFill s.config.imemWords s.imem = true
  /-- Data memory is in canonical form. -/
  dmemCanonical : Memory.wf s.config.dmemFill s.config.dmemWords s.dmem = true
  /-- A LW in EX/MEM is never directly ahead of a word in ID/EX that takes forwarding and stall-checks
  the register it loads: the load-use stall came between (40_pipeline R127, R128). -/
  loadUseGap : kindOf s.config.highBits s.exmem.instr = .LW →
    (wordPath s.config s.idex.instr).takesForwarding = true →
    stallChecks s.config s.idex.instr (fieldB s.exmem.instr) = false
  /-- Unless ID/EX holds a NOOP, its offset is the sign-extended field of its word (10_state R31). -/
  offsetOfWord : kindOf s.config.highBits s.idex.instr ≠ .NOOP →
    s.idex.offset = sext16 (field16 s.idex.instr)
  /-- Unless ID/EX holds a NOOP, its register values, with WB/END forwarded, are the register file's:
  WB/END holds what was written since they were read (10_state R22, R34). -/
  operandsFresh : kindOf s.config.highBits s.idex.instr ≠ .NOOP →
    forwardFrom (fieldA s.idex.instr) (fieldB s.idex.instr) (s.idex.readRegA, s.idex.readRegB)
      (destOf s.config s.wbend.instr) s.wbend.writeData
    = (s.reg.read (fieldA s.idex.instr), s.reg.read (fieldB s.idex.instr))

/-- The word `next` directly behind `w` costs a load-use stall, in the spec's own terms: `w` is a LW, and
`next`, when it is a LW, has the loaded register in field A, and when it is of another kind, in field A or
field B; a HALT, a NOOP or an unrecognised word is compared only under STALL_CHECK_NONREADERS
(30_encoding R83, 40_pipeline R105). -/
def loadUsePair (c : Config) (w next : Word) : Prop :=
  kindOf c.highBits w = .LW ∧
    (fieldA next = fieldB w ∨ (kindOf c.highBits next ≠ .LW ∧ fieldB next = fieldB w)) ∧
    (c.stallCheckNonreaders = true ∨ kindOf c.highBits next ∈ ([.ADD, .NOR, .LW, .SW, .BEQ] : List Kind))

/-- The load-use hazard: the words in ID/EX and IF/ID are such a pair (40_pipeline R105). -/
def State.loadUseHazard (s : State) : Prop := loadUsePair s.config s.idex.instr s.ifid.instr

/-- The branch in EX/MEM is taken, in the spec's own terms (40_pipeline R112). -/
def State.branchTaken (s : State) : Prop :=
  kindOf s.config.highBits s.exmem.instr = .BEQ ∧ s.exmem.eq = true

/-- `pc` names a word of instruction memory (20_memory R57). -/
def State.pcInRange (s : State) : Prop := 0 ≤ s.pc ∧ s.pc < (s.config.imemWords : Int)

/-- The destination index that an ADD or NOR word names: its bits 15:0, or its bits 2:0 under
ARITH_DEST_POLICY = `low3` (30_encoding R79). -/
def namedDestination (c : Config) (w : Word) : Nat :=
  match c.arithDest with
  | .field16Fault => w.toNat % 2 ^ 16
  | .low3 => w.toNat % 2 ^ 3

/-- The word `w` writes register `r` (30_encoding R82): the destination of an ADD or NOR, field B of a
LW, and nothing for every other kind. -/
def writesTo (c : Config) (w : Word) (r : Nat) : Prop :=
  (kindOf c.highBits w ∈ ([.ADD, .NOR] : List Kind) ∧ r = namedDestination c w) ∨
    (kindOf c.highBits w = .LW ∧ r = (fieldB w).val)

/-- The machine has not retired a HALT in the first `n` of the states from `s` on (70_reset R226). -/
def State.noHaltBefore (s : State) (n : Nat) : Prop :=
  ∀ (j : Nat) (u : State), j < n → steps j s = .next u → kindOf u.config.highBits u.wbend.instr ≠ .HALT

/-- Every latch holds the NOOP word: the idle pattern of reset (10_state R42). -/
def State.Idle (s : State) : Prop :=
  s.ifid.instr = noopWord ∧ s.idex.instr = noopWord ∧ s.exmem.instr = noopWord ∧
    s.memwb.instr = noopWord ∧ s.wbend.instr = noopWord

/-- The `n` words behind the one at `pc` are in instruction memory and are the NOOP word. -/
def State.noopsBehind (s : State) (n : Nat) : Prop :=
  0 ≤ s.pc ∧ s.pc + n < s.config.imemWords ∧ ∀ k : Nat, 1 ≤ k → k ≤ n → s.ifetch (s.pc + k) = noopWord

/-- The register file once the words in MEM/WB and EX/MEM have been written back (R116, R131). -/
def State.regAfterOlder (s : State) : Regs :=
  match destOf s.config s.exmem.instr with
  | none => s.nextReg
  | some d => s.nextReg.write d s.memoryStage.writeData

/-- Two states agree on everything the trace shows, and on the program and the parameters. -/
def State.sameObserved (s t : State) : Prop :=
  s.config = t.config ∧ s.imem = t.imem ∧ s.observe = t.observe

end Sys2Proof.Machine
end

