-- ==== Sys2Proof/Certificates/Slice0/Obligations.lean ====
section
/-! DEFINITION. The statements for the provers. Each is about every state, every instruction word and
every value of the parameters, unless it says otherwise. `step s = .next t` with `s.halted = false`
is one cycle; a state whose WB/END holds a HALT is final and steps to itself (the model's choice, log 19). -/

open Sys2Proof Sys2Proof.Machine

/-! ## Encoding (30_encoding) -/

/-- Decoding the word of a well-formed instruction gives it back, every operand and bits 31:25
included, under either policy for bits 31:25. R81 gives it for bits 31:25 zero; that it holds with
them set is the model's choice, whose constructors keep those bits (log 31). Positions and opcode
numbers: log 1, log 2. -/
def Obligations.DecodeInvertsEncode : Prop :=
  ∀ (p : HighBitsPolicy) (i : Instr), i.wellFormed p = true → decode p (encode i) = i

/-- Every word decodes, to a well-formed instruction whose word it is: nothing is rejected and no bit
is dropped (R73, R85). R81 gives the round trip for words with bits 31:25 zero, by an encoder that
zeroes them, and D7 says that it fails under `ignore` for the others; that it holds for every word
here is the model's choice, whose constructors keep bits 31:25 (log 31). Positions and opcode numbers:
log 1, log 2. -/
def Obligations.EncodeInvertsDecode : Prop :=
  ∀ (p : HighBitsPolicy) (w : Word), (decode p w).wellFormed p = true ∧ encode (decode p w) = w

/-- Words written out from the encoding of R71 and R75 (95_test_vectors section 2) decode to the
instructions they stand for. -/
def Obligations.WrittenOutWordsDecode : Prop :=
  decode .unrecognised 0x00010002 = .add 0 0 1 2 ∧
  decode .unrecognised 0x004A0003 = .nor 0 1 2 3 ∧
  decode .unrecognised 0x00810000 = .lw 0 0 1 0 ∧
  decode .unrecognised 0x00C30009 = .sw 0 0 3 9 ∧
  decode .unrecognised 0x0100FFFC = .beq 0 0 0 0xFFFC ∧
  decode .unrecognised 0x01400000 = .unrecOp5 0 0 0 0 ∧
  decode .unrecognised 0x01BFFFFF = .halt 0 7 7 0xFFFF ∧
  decode .unrecognised 0x01C00000 = .noop 0 0 0 0 ∧
  decode .unrecognised 0x02000000 = .unrecHigh 1 0 0 0 0 ∧
  decode .ignore 0x02000000 = .add 1 0 0 0 ∧
  decode .unrecognised 0xFFFFFFFF = .unrecHigh 127 7 7 7 0xFFFF ∧
  decode .ignore 0xFFFFFFFF = .noop 127 7 7 0xFFFF

/-- The kind of a word (R74 to R76): UNREC exactly for opcode 5 and, under `unrecognised`, for a word
with a bit of 31:25 set; every other word by its opcode number. -/
def Obligations.KindFollowsTheOpcodeMap : Prop :=
  ∀ (p : HighBitsPolicy) (w : Word),
    ((p = .unrecognised ∧ fieldHi w ≠ 0) → kindOf p w = .UNREC) ∧
    ((p = .ignore ∨ fieldHi w = 0) →
      (fieldOp w = 0 ↔ kindOf p w = .ADD) ∧ (fieldOp w = 1 ↔ kindOf p w = .NOR) ∧
      (fieldOp w = 2 ↔ kindOf p w = .LW) ∧ (fieldOp w = 3 ↔ kindOf p w = .SW) ∧
      (fieldOp w = 4 ↔ kindOf p w = .BEQ) ∧ (fieldOp w = 5 ↔ kindOf p w = .UNREC) ∧
      (fieldOp w = 6 ↔ kindOf p w = .HALT) ∧ (fieldOp w = 7 ↔ kindOf p w = .NOOP))

/-- The fields of a word are its bits 31:25, 24:22, 21:19, 18:16 and 15:0, and the offset is bits 15:0
with bit 15 as the sign (R71, R78). The positions: log 1. -/
def Obligations.FieldsStandAtTheirBits : Prop :=
  ∀ w : Word,
    (fieldHi w).toNat = w.toNat / 2 ^ 25 ∧ (fieldOp w).toNat = w.toNat / 2 ^ 22 % 8 ∧
    (fieldA w).val = w.toNat / 2 ^ 19 % 8 ∧ (fieldB w).val = w.toNat / 2 ^ 16 % 8 ∧
    (field16 w).toNat = w.toNat % 2 ^ 16 ∧
    sext16 (field16 w) = if w.toNat % 2 ^ 16 < 2 ^ 15 then ((w.toNat % 2 ^ 16 : Nat) : Int)
      else ((w.toNat % 2 ^ 16 : Nat) : Int) - 2 ^ 16

/-- The destination index of ADD and NOR is the whole 16-bit field under `field16Fault`, and that field
modulo 8 under `low3` (R79; the policy is D8, log 4). -/
def Obligations.ArithmeticDestinationIndex : Prop :=
  ∀ (c : Config) (f : BitVec 16),
    (c.arithDest = .field16Fault → arithDest c f = f.toNat) ∧ (c.arithDest = .low3 → arithDest c f = f.toNat % 8)

/-- Which register a word writes (R82), in both directions. -/
def Obligations.WritersAreAddNorAndLw : Prop :=
  ∀ (c : Config) (w : Word) (r : Nat), destOf c w = some r ↔ writesTo c w r

/-! ## Launch (70_reset) -/

/-- Reset is the launch of the empty program under the spec's defaults (R220, R223): the defaults are
the spec's decisions D1, D2, D3, D14, D17 (log 6 to log 10). -/
def Obligations.ResetIsTheEmptyLaunch : Prop :=
  launch LaunchParams.default [] = .ok State.reset

/-- A launch that succeeds gives the state of R220 and R221: registers REG_INIT, `pc` and `cycles` 0,
NOOPs in the latches with their other fields 0, the program and then IMEM_FILL in instruction memory,
and the mirror of the program (or the override) and then DMEM_FILL in data memory (log 24). -/
def Obligations.LaunchFixesTheState : Prop :=
  ∀ (p : LaunchParams) (program : List Word) (s : State), launch p program = .ok s →
    s.config = p.config ∧ s.reg = p.regInit ∧ s.pc = 0 ∧ s.cycles = 0 ∧
    s.ifid = ⟨0x01C00000, 0⟩ ∧ s.idex = ⟨0x01C00000, 0, 0, 0, 0⟩ ∧ s.exmem = ⟨0x01C00000, 0, false, 0, 0⟩ ∧
    s.memwb = ⟨0x01C00000, 0⟩ ∧ s.wbend = ⟨0x01C00000, 0⟩ ∧
    (∀ a : Nat, s.ifetch a = program.getD a p.config.imemFill) ∧
    (∀ a : Nat, s.memRead a = (p.dmemInit.getD program).getD a p.config.dmemFill)

/-- A program that does not fit is refused, and one that fits launches (R222, R223; D27). The length
check of an override is the model's choice (log 24), and so is the order of the two failures: where
both limits fail, the program's is reported and the image's is not (log 25). -/
def Obligations.LaunchRefusesWhatDoesNotFit : Prop :=
  ∀ (p : LaunchParams) (program : List Word),
    (launch p program = .error .programTooLong ↔ p.config.imemWords < program.length) ∧
    (launch p program = .error .dataImageTooLong ↔
      ¬ p.config.imemWords < program.length ∧ p.config.dmemWords < (p.dmemInit.getD program).length) ∧
    ((∃ s, launch p program = .ok s) ↔
      program.length ≤ p.config.imemWords ∧ (p.dmemInit.getD program).length ≤ p.config.dmemWords)

/-- The sixteen digits stand for 0 to 15, in either case, and no other character is a digit. A line with
a character that is no digit is refused, the empty line too; any other line loads exactly when its
value fits in 32 bits, and then as that value, the first digit the most significant (R221, R222,
20_memory R53; D23, D27; the empty line and the case of digits: log 25). -/
def Obligations.LinesAreHexadecimalWords : Prop :=
  (∀ (ch : Char) (n : Nat), hexDigit ch = some n ↔
    "0123456789abcdef".toList[n]? = some ch ∨ "0123456789ABCDEF".toList[n]? = some ch) ∧
  parseLine [] = .error .notHexadecimal ∧
  (∀ line : List Char, (∃ ch ∈ line, hexDigit ch = none) → parseLine line = .error .notHexadecimal) ∧
  (∀ (line : List Char) (ds : List Nat), line ≠ [] → line.map hexDigit = ds.map some →
    parseLine line = if Nat.ofDigits 16 ds.reverse < 2 ^ 32 then .ok (BitVec.ofNat 32 (Nat.ofDigits 16 ds.reverse))
      else .error .lineTooWide)

/-- A program text loads as the launch of its lines' words, in order; the first line that does not load
makes the whole load fail, with that line's failure (R221, R222; which failure is reported: log 25). -/
def Obligations.ProgramTextLoads : Prop :=
  ∀ (p : LaunchParams) (lines : List (List Char)),
    (∀ ws : List Word, List.Forall₂ (fun line w => parseLine line = .ok w) lines ws → load p lines = launch p ws) ∧
    (∀ (good : List (List Char)) (bad : List Char) (rest : List (List Char)) (e : LoadError),
      lines = good ++ bad :: rest → (∀ line ∈ good, ∃ w, parseLine line = .ok w) → parseLine bad = .error e →
      load p lines = .error e)

/-! ## The step and the run loop -/

/-- A step runs the decoded instruction: in a state that is not final and whose `pc` is in instruction
memory, it is the meaning of the instruction decoded from the word at `pc`. What a step adds is the
halt test before the cycle (R225) and the range check of the fetch (R57). -/
def Obligations.StepRunsTheDecodedInstruction : Prop :=
  ∀ (s : State) (i : Instr), s.halted = false → s.pcInRange → decode s.config.highBits (s.ifetch s.pc) = i →
    step s = exec i s

/-- A word placed where the next step fetches is decoded and run by it; instruction memory in canonical
form. -/
def Obligations.PlacedWordRuns : Prop :=
  ∀ (s : State) (w : Word), s.halted = false → s.pcInRange →
    Memory.wf s.config.imemFill s.config.imemWords s.imem = true →
    step (s.withFetchWord 32 w.toNat) = exec (decode s.config.highBits w) (s.withFetchWord 32 w.toNat)

/-- Every meaning issues its instruction: where no older instruction faults in its stage, it answers a
next state, in which `cycles` has grown by one and, without a stall or a taken branch, IF/ID holds the
instruction's word and the address behind it (R100, R102, R119). All nine constructors. -/
def Obligations.EveryInstructionIssues : Prop :=
  ∀ (i : Instr) (s : State),
    (∀ r, writesTo s.config s.memwb.instr r → r < 8) →
    (kindOf s.config.highBits s.exmem.instr ∈ ([.LW, .SW] : List Kind) →
      0 ≤ signed s.exmem.aluResult ∧ signed s.exmem.aluResult < (s.config.dmemWords : Int)) →
    ∃ t, exec i s = .next t ∧ t.cycles = s.cycles + 1 ∧
      (¬ s.branchTaken → ¬ s.loadUseHazard → t.ifid = ⟨encode i, s.pc + 1⟩ ∧ t.pc = s.pc + 1)

/-- The frame of a cycle, whichever of the nine instructions it issues: the parameters and instruction
memory are unchanged; a register other than the destination of the word in MEM/WB is unchanged; a word
of data memory is unchanged unless EX/MEM holds a SW and it is the word at index `signed aluResult`
(R22, R38, R39, R64, R100). -/
def Obligations.CycleFrame : Prop :=
  ∀ (i : Instr) (s t : State), exec i s = .next t →
    t.config = s.config ∧ t.imem = s.imem ∧
    (∀ r : Reg, ¬ writesTo s.config s.memwb.instr r.val → t.reg.read r = s.reg.read r) ∧
    (∀ a : Nat, ¬ (kindOf s.config.highBits s.exmem.instr = .SW ∧ (signed s.exmem.aluResult).toNat = a) →
      Memory.read s.config.dmemFill t.dmem a = Memory.read s.config.dmemFill s.dmem a)

/-- Each cycle counts, a stall or squash cycle too, and the counter starts at 0 (R27; D20, log 18);
instruction memory and the parameters never change (R38). -/
def Obligations.EveryCycleCounts : Prop :=
  State.reset.cycles = 0 ∧
  ∀ s t : State, s.halted = false → step s = .next t →
    t.cycles = s.cycles + 1 ∧ t.imem = s.imem ∧ t.config = s.config

/-- The faults of a step are exactly those of R204: it faults when and only when, in a state that is not
final, one of the three checks fails, and the fault carries every reason that failed and no other
(R117, R57, R58, R125, R206; D16, log 14). -/
def Obligations.FaultsAreExactlyTheFailedChecks : Prop :=
  ∀ s : State,
    let failed : FaultReason → Prop := fun r =>
      (∃ d, r = .destOutOfRange d ∧ writesTo s.config s.memwb.instr d ∧ 8 ≤ d) ∨
      (r = .dataOutOfRange (signed s.exmem.aluResult) ∧
        kindOf s.config.highBits s.exmem.instr ∈ ([.LW, .SW] : List Kind) ∧
        ¬ (0 ≤ signed s.exmem.aluResult ∧ signed s.exmem.aluResult < (s.config.dmemWords : Int))) ∨
      (r = .fetchOutOfRange s.pc ∧ ¬ s.pcInRange)
    ((∃ f, step s = .fault f) ↔ s.halted = false ∧ ∃ r, failed r) ∧
    (∀ f, step s = .fault f → ∀ r, r ∈ f.reasons ↔ failed r)

/-- The reasons of a fault stand oldest instruction first: Writeback's before Memory's before Fetch's
(R206; D16, log 14). -/
def Obligations.FaultReasonsOldestFirst : Prop :=
  ∀ (s : State) (f : Fault), step s = .fault f →
    f.reasons.Pairwise (fun r r' =>
      (∃ d, r = .destOutOfRange d ∧ ∀ d', r' ≠ .destOutOfRange d') ∨
      (∃ ea pc, r = .dataOutOfRange ea ∧ r' = .fetchOutOfRange pc))

/-- Halt is terminal: a state whose WB/END holds a HALT stays as it is for any number of steps (R215,
R227; the step to itself is the model's choice, log 19). -/
def Obligations.HaltedStateIsFinal : Prop :=
  ∀ (s : State) (n : Nat), kindOf s.config.highBits s.wbend.instr = .HALT → steps n s = .next s

/-- The run loop (R225, R226, R229), its three answers, each exactly where it is due: `halted` with the
first state whose WB/END holds a HALT, if it is at most `n` cycles on; `faulted` with the state before
the first faulting cycle, if that is one of the first `n` and no HALT has retired before it; `noHalt`
with the state `n` cycles on, if no HALT has retired in any state up to it. The bound `n` is the
model's argument (D21, log 28). -/
def Obligations.RunStopsAtTheFirstRetiredHalt : Prop :=
  ∀ (n : Nat) (s : State),
    (∀ P, run n s = .halted P ↔
      ∃ k, k ≤ n ∧ steps k s = .next P ∧ s.noHaltBefore k ∧ kindOf P.config.highBits P.wbend.instr = .HALT) ∧
    (∀ P f, run n s = .faulted P f ↔
      ∃ k, k < n ∧ steps k s = .next P ∧ s.noHaltBefore (k + 1) ∧ step P = .fault f) ∧
    (∀ P, run n s = .noHalt P ↔ steps n s = .next P ∧ s.noHaltBefore (n + 1))

/-- The halt test is a HALT in WB/END, whatever the fields of its word, and no launch state meets it, so
that cycle 0 runs (R226). -/
def Obligations.HaltTestReadsWbEnd : Prop :=
  (∀ s : State, s.halted = true ↔ kindOf s.config.highBits s.wbend.instr = .HALT) ∧
  (∀ (p : LaunchParams) (program : List Word) (s : State), launch p program = .ok s → s.halted = false)

/-- The report of a run (R232, D28, log 29): the final state as observed; for a faulted run the reasons
and the state before the faulting cycle; for a bounded run that did not halt, its last state. -/
def Obligations.ReportFollowsTheRun : Prop :=
  ∀ (n : Nat) (s P : State),
    (run n s = .halted P → (run n s).report = .final P.observe) ∧
    (∀ f, run n s = .faulted P f → (run n s).report = .fault f.reasons P.observe) ∧
    (run n s = .noHalt P → (run n s).report = .noHalt P.observe)

/-- What the trace shows of a state (R234): cycles, pc, data memory, the registers, the word of every
latch, and each other latch field exactly when its word is of a kind for which the table of 10_state
R36 calls it meaningful (D24, log 29). -/
def Obligations.ObservationShowsMeaningfulFields : Prop :=
  ∀ s : State,
    let o := s.observe
    let shownFor {α : Type} (w : Word) (kinds : List Kind) (v : α) : Option α :=
      if kindOf s.config.highBits w ∈ kinds then some v else none
    o.cycles = s.cycles ∧ o.pc = s.pc ∧ o.dmem = s.dmem ∧ o.reg = s.reg ∧
    o.ifid = ⟨s.ifid.instr, shownFor s.ifid.instr [.BEQ] s.ifid.pcPlus1⟩ ∧
    o.idex = ⟨s.idex.instr, shownFor s.idex.instr [.BEQ] s.idex.pcPlus1,
      shownFor s.idex.instr [.ADD, .NOR, .LW, .SW, .BEQ] s.idex.readRegA,
      shownFor s.idex.instr [.ADD, .NOR, .SW, .BEQ] s.idex.readRegB,
      shownFor s.idex.instr [.LW, .SW, .BEQ] s.idex.offset⟩ ∧
    o.exmem = ⟨s.exmem.instr, shownFor s.exmem.instr [.BEQ] s.exmem.branchTarget,
      shownFor s.exmem.instr [.BEQ] s.exmem.eq, shownFor s.exmem.instr [.ADD, .NOR, .LW, .SW] s.exmem.aluResult,
      shownFor s.exmem.instr [.SW] s.exmem.storeData⟩ ∧
    o.memwb = ⟨s.memwb.instr, shownFor s.memwb.instr [.ADD, .NOR, .LW] s.memwb.writeData⟩ ∧
    o.wbend = ⟨s.wbend.instr, shownFor s.wbend.instr [.ADD, .NOR, .LW] s.wbend.writeData⟩

/-- The trace of a run that halts: one row for every state the run loop tests, each row a cycle index
behind the one before, the final state last (R234; the final state in the trace is D28, log 29). -/
def Obligations.TraceShowsEveryState : Prop :=
  ∀ (n : Nat) (s P : State), run n s = .halted P →
    (trace n s).getLast? = some P.observe ∧ s.cycles + (trace n s).length = P.cycles + 1 ∧
    ∀ (k : Nat) (o : Observation), (trace n s)[k]? = some o →
      o.cycles = s.cycles + k ∧ ∃ u, steps k s = .next u ∧ o = u.observe

/-! ## Hazards: stall, squash, the next pc (40_pipeline) -/

/-- R112: `taken` holds exactly when EX/MEM holds a BEQ and its equality flag is true. -/
def Obligations.TakenIsABeqWithItsFlag : Prop :=
  ∀ s : State, s.taken = true ↔ kindOf s.config.highBits s.exmem.instr = .BEQ ∧ s.exmem.eq = true

/-- The stall signal is the load-use hazard (R83, R105; which words are compared is D9, log 5). -/
def Obligations.StallIsTheLoadUseHazard : Prop :=
  ∀ s : State, s.stall = true ↔ s.loadUseHazard

/-- R122: the branch target if taken, else the frozen pc if stalled, else the next word. -/
def Obligations.NextPcPriority : Prop :=
  ∀ s t : State, s.halted = false → step s = .next t →
    (s.branchTaken → t.pc = s.exmem.branchTarget) ∧
    (¬ s.branchTaken → s.loadUseHazard → t.pc = s.pc) ∧
    (¬ s.branchTaken → ¬ s.loadUseHazard → t.pc = s.pc + 1)

/-- R104 and R119: without a stall or a taken branch every latch moves one stage on and `pc` advances by
one; Decode reads both operand registers, whatever the kind, and sign-extends the immediate. -/
def Obligations.NormalAdvance : Prop :=
  ∀ s t : State, s.halted = false → step s = .next t → ¬ s.branchTaken → ¬ s.loadUseHazard →
    t.ifid = ⟨s.ifetch s.pc, s.pc + 1⟩ ∧
    t.idex = ⟨s.ifid.instr, s.ifid.pcPlus1, s.reg.read (fieldA s.ifid.instr), s.reg.read (fieldB s.ifid.instr),
      (field16 s.ifid.instr).toInt⟩ ∧
    t.exmem = s.executeStage ∧ t.memwb = s.memoryStage ∧ t.wbend = ⟨s.memwb.instr, s.memwb.writeData⟩ ∧
    t.pc = s.pc + 1

/-- A stall holds IF/ID and `pc` and puts a bubble into ID/EX, its other fields as computed, while the
later stages advance (R120; D11, log 11). -/
def Obligations.StallHoldsFetchAndDecode : Prop :=
  ∀ s t : State, s.halted = false → step s = .next t → ¬ s.branchTaken → s.loadUseHazard →
    t.ifid = s.ifid ∧ t.pc = s.pc ∧
    t.idex = ⟨0x01C00000, s.ifid.pcPlus1, s.reg.read (fieldA s.ifid.instr), s.reg.read (fieldB s.ifid.instr),
      (field16 s.ifid.instr).toInt⟩ ∧
    t.exmem = s.executeStage ∧ t.memwb = s.memoryStage ∧ t.wbend = ⟨s.memwb.instr, s.memwb.writeData⟩

/-- A stall lasts exactly one cycle (R127). -/
def Obligations.StallLastsOneCycle : Prop :=
  ∀ s t : State, s.halted = false → step s = .next t → s.loadUseHazard → ¬ t.loadUseHazard

/-- The squash depth is 3 with a taken branch and 0 without (R124). A taken branch voids IF/ID, ID/EX and
EX/MEM, sends `pc` to its target and moves on itself, a load-use hazard in the same cycle or not (R121,
R123; D10, log 17). -/
def Obligations.SquashWinsOverStall : Prop :=
  (∀ s : State, (s.branchTaken → s.squashDepth = 3) ∧ (¬ s.branchTaken → s.squashDepth = 0)) ∧
  ∀ s t : State, s.halted = false → step s = .next t → s.branchTaken →
    t.ifid.instr = 0x01C00000 ∧ t.idex.instr = 0x01C00000 ∧ t.exmem.instr = 0x01C00000 ∧
    t.memwb.instr = s.exmem.instr ∧ t.pc = s.exmem.branchTarget ∧ t.wbend = ⟨s.memwb.instr, s.memwb.writeData⟩

/-- The three squashed instructions change nothing. The first would have reached Memory in the cycle
after the resolving one and Writeback one later; the third, Memory in the third cycle and Writeback in
the fourth. So no register changes over four cycles, and data memory does not over three (20_memory
R67, 43_branch R172, R173). -/
def Obligations.SquashedInstructionsChangeNothing : Prop :=
  ∀ (s t u : State) (k : Nat), s.halted = false → step s = .next t → s.branchTaken → steps k t = .next u →
    (k ≤ 4 → u.reg = t.reg) ∧ (k ≤ 3 → u.dmem = t.dmem)

/-! ## Execute and forwarding -/

/-- The nearest producer wins: EX/MEM (an ADD or NOR) before MEM/WB before WB/END before the register
file, for field A and field B alike; a HALT or NOOP takes no forwarding (R106 to R109; that a LW in
EX/MEM forwards nothing is D19, log 16). -/
def Obligations.NearestProducerWins : Prop :=
  ∀ s : State,
    let exmemWrites (r : Reg) : Prop :=
      kindOf s.config.highBits s.exmem.instr ∈ ([.ADD, .NOR] : List Kind) ∧ writesTo s.config s.exmem.instr r.val
    let operand (r : Reg) (read v : Word) : Prop :=
      (exmemWrites r → v = s.exmem.aluResult) ∧
      (¬ exmemWrites r → writesTo s.config s.memwb.instr r.val → v = s.memwb.writeData) ∧
      (¬ exmemWrites r → ¬ writesTo s.config s.memwb.instr r.val → writesTo s.config s.wbend.instr r.val →
        v = s.wbend.writeData) ∧
      (¬ exmemWrites r → ¬ writesTo s.config s.memwb.instr r.val → ¬ writesTo s.config s.wbend.instr r.val → v = read)
    (kindOf s.config.highBits s.idex.instr ∉ ([.HALT, .NOOP] : List Kind) →
      operand (fieldA s.idex.instr) s.idex.readRegA s.operands.1 ∧
      operand (fieldB s.idex.instr) s.idex.readRegB s.operands.2) ∧
    (kindOf s.config.highBits s.idex.instr ∈ ([.HALT, .NOOP] : List Kind) →
      s.operands = (s.idex.readRegA, s.idex.readRegB))

/-- Execute's four results in the next EX/MEM latch, its operands `a` and `b` those of the forwarding
multiplexer; `instr` moves on unless squashed (R110, R111, 41_arithmetic R150, R151, 42_memory_ops R162,
43_branch R171; D11, D12, D18, log 11, log 12, log 15). -/
def Obligations.ExecuteComputes : Prop :=
  ∀ s t : State, s.halted = false → step s = .next t →
    let kind := kindOf s.config.highBits s.idex.instr
    let a := s.operands.1
    let b := s.operands.2
    (kind = .ADD → t.exmem.aluResult = a + b) ∧
    (kind = .NOR → t.exmem.aluResult = ~~~(a ||| b)) ∧
    (kind ∈ ([.LW, .SW] : List Kind) → t.exmem.aluResult = a + BitVec.ofInt 32 s.idex.offset) ∧
    (kind ∈ ([.BEQ, .HALT, .NOOP, .UNREC] : List Kind) → t.exmem.aluResult = 0) ∧
    t.exmem.branchTarget = s.idex.pcPlus1 + s.idex.offset ∧
    (t.exmem.eq = true ↔ a = b) ∧ t.exmem.storeData = b ∧
    (¬ s.branchTaken → t.exmem.instr = s.idex.instr)

/-- What a word in Execute reads is what the register would hold if every older instruction had
finished: in a state that meets the invariant, the operand of a kind that reads field A (B) is that
register once the words in MEM/WB and EX/MEM are written back (R131). -/
def Obligations.OperandsAreTheSequentialValues : Prop :=
  ∀ s : State, s.Inv →
    (readsA (kindOf s.config.highBits s.idex.instr) = true →
      s.operands.1 = s.regAfterOlder.read (fieldA s.idex.instr)) ∧
    (readsB (kindOf s.config.highBits s.idex.instr) = true →
      s.operands.2 = s.regAfterOlder.read (fieldB s.idex.instr))

/-! ## Memory, Writeback, Retire -/

/-- The Memory stage (R113, R114, 20_memory R58, R62): a LW in EX/MEM reads the word at index
`signed aluResult`, which is in range; a SW writes `storeData` there and nowhere else; every other kind
leaves data memory as it is and passes its ALU result on (D11, log 11). Data memory in canonical form. -/
def Obligations.MemoryStageAccesses : Prop :=
  ∀ s t : State, s.halted = false → step s = .next t →
    Memory.wf s.config.dmemFill s.config.dmemWords s.dmem = true →
    let kind := kindOf s.config.highBits s.exmem.instr
    let ea := signed s.exmem.aluResult
    let before (a : Nat) : Word := Memory.read s.config.dmemFill s.dmem a
    let after (a : Nat) : Word := Memory.read s.config.dmemFill t.dmem a
    (kind = .LW → 0 ≤ ea ∧ ea < (s.config.dmemWords : Int) ∧ t.memwb = ⟨s.exmem.instr, before ea.toNat⟩ ∧
      t.dmem = s.dmem) ∧
    (kind = .SW → 0 ≤ ea ∧ ea < (s.config.dmemWords : Int) ∧ t.memwb = ⟨s.exmem.instr, s.exmem.aluResult⟩ ∧
      after ea.toNat = s.exmem.storeData ∧ ∀ a, a ≠ ea.toNat → after a = before a) ∧
    (kind ∉ ([.LW, .SW] : List Kind) → t.memwb = ⟨s.exmem.instr, s.exmem.aluResult⟩ ∧ t.dmem = s.dmem)

/-- R116 and R23: Writeback commits `writeData` to the register the word in MEM/WB writes, if it writes
one, and to no other; SW, BEQ, HALT, NOOP and unrecognised words leave the register file unchanged. -/
def Obligations.WritebackCommits : Prop :=
  ∀ s t : State, s.halted = false → step s = .next t →
    (∀ r : Reg, writesTo s.config s.memwb.instr r.val → t.reg.read r = s.memwb.writeData) ∧
    (∀ r : Reg, ¬ writesTo s.config s.memwb.instr r.val → t.reg.read r = s.reg.read r) ∧
    (kindOf s.config.highBits s.memwb.instr ∈ ([.SW, .BEQ, .HALT, .NOOP, .UNREC] : List Kind) → t.reg = s.reg)

/-- R118: Retire passes the MEM/WB latch on unchanged, as the next WB/END latch. -/
def Obligations.RetirePassesOn : Prop :=
  ∀ s t : State, s.halted = false → step s = .next t → t.wbend = ⟨s.memwb.instr, s.memwb.writeData⟩

/-- The cycle that retires a HALT: the machine is final after it, no register has changed, and the word
behind the HALT has done its Memory stage, a SW its store (20_memory R68, 70_reset R226, R236). -/
def Obligations.HaltRetiresWithTheNextWordInMemory : Prop :=
  ∀ s t : State, s.halted = false → kindOf s.config.highBits s.memwb.instr = .HALT → step s = .next t →
    (∀ n, steps n t = .next t) ∧ t.reg = s.reg ∧ t.memwb.instr = s.exmem.instr ∧
    (kindOf s.config.highBits s.exmem.instr = .SW →
      t.dmem = Memory.write s.config.dmemFill s.dmem (signed s.exmem.aluResult).toNat s.exmem.storeData)

/-! ## The invariant -/

/-- The invariant holds at reset. -/
def Obligations.ResetMeetsTheInvariant : Prop := State.reset.Inv

/-- The invariant holds in every launch state. -/
def Obligations.LaunchMeetsTheInvariant : Prop :=
  ∀ (p : LaunchParams) (program : List Word) (s : State), launch p program = .ok s → s.Inv

/-- Every step keeps the invariant: the canonical form of both memories, the gap a load-use stall makes
(R127, R128), and the freshness of the operands in ID/EX (R22, R31, R34). -/
def Obligations.StepKeepsTheInvariant : Prop :=
  ∀ s t : State, s.Inv → step s = .next t → t.Inv

/-- What is not meaningful is never observed (10_state R36, R43, D24): two states that agree on all the
trace shows, on the program and on the parameters step to two states that agree on them again, or
fault with the same reasons. -/
def Obligations.HiddenFieldsAreNeverObserved : Prop :=
  ∀ s t : State, s.sameObserved t →
    (∀ s', step s = .next s' → ∃ t', step t = .next t' ∧ s'.sameObserved t') ∧
    (∀ f, step s = .fault f → step t = .fault f)

/-! ## Each instruction's whole passage from an idle pipeline

The state holds NOOPs in every latch, and the four words behind the instruction are NOOPs. The meaning
answers a next state; three or four cycles later the instruction has done what its rule's "Sequential
effect" says, and nothing else. -/

/-- ADD (41_arithmetic R150): the sum modulo 2^32 is in the destination, every other register and both
memories are as before, and the ADD is in WB/END. The wrap is D12 (log 12). -/
def Obligations.AddCompletes : Prop :=
  ∀ (s : State) (hi : BitVec 7) (rA rB : Reg) (dest : BitVec 16),
    (Instr.add hi rA rB dest).wellFormed s.config.highBits = true → s.Idle → s.noopsBehind 4 →
    arithDest s.config dest < 8 →
    ∃ t u, exec (.add hi rA rB dest) s = .next t ∧ steps 4 t = .next u ∧
      u.reg = s.reg.write (arithDest s.config dest) (s.reg.read rA + s.reg.read rB) ∧
      u.dmem = s.dmem ∧ u.imem = s.imem ∧ u.config = s.config ∧ u.pc = s.pc + 5 ∧ u.cycles = s.cycles + 5 ∧
      u.wbend.instr = encode (.add hi rA rB dest)

/-- NOR (R151). -/
def Obligations.NorCompletes : Prop :=
  ∀ (s : State) (hi : BitVec 7) (rA rB : Reg) (dest : BitVec 16),
    (Instr.nor hi rA rB dest).wellFormed s.config.highBits = true → s.Idle → s.noopsBehind 4 →
    arithDest s.config dest < 8 →
    ∃ t u, exec (.nor hi rA rB dest) s = .next t ∧ steps 4 t = .next u ∧
      u.reg = s.reg.write (arithDest s.config dest) (~~~(s.reg.read rA ||| s.reg.read rB)) ∧
      u.dmem = s.dmem ∧ u.imem = s.imem ∧ u.config = s.config ∧ u.pc = s.pc + 5 ∧ u.cycles = s.cycles + 5 ∧
      u.wbend.instr = encode (.nor hi rA rB dest)

/-- ADD and NOR with a destination that is no register (R117, R150, R151; D8, log 4): the meaning
answers a next state, the instruction reaches Writeback with no register changed, and the cycle that
would write it faults with `DestOutOfRange`. -/
def Obligations.ArithmeticTrapsOnAMissingDestination : Prop :=
  ∀ (s : State) (i : Instr) (hi : BitVec 7) (rA rB : Reg) (dest : BitVec 16),
    (i = .add hi rA rB dest ∨ i = .nor hi rA rB dest) →
    i.wellFormed s.config.highBits = true → s.Idle → s.noopsBehind 4 → 8 ≤ arithDest s.config dest →
    ∃ t u, exec i s = .next t ∧ steps 3 t = .next u ∧ u.reg = s.reg ∧
      step u = .fault (.raised (.destOutOfRange (arithDest s.config dest)) [])

/-- LW (42_memory_ops R160, R162): the word at index `signed(reg[rA] + word(off))` is in register rB,
every other register and both memories are as before. A NOOP behind a load of r0 stalls under
STALL_CHECK_NONREADERS (D9, log 5). -/
def Obligations.LwCompletes : Prop :=
  ∀ (s : State) (hi : BitVec 7) (rA rB : Reg) (off : BitVec 16),
    (Instr.lw hi rA rB off).wellFormed s.config.highBits = true → s.Idle → s.noopsBehind 4 →
    let ea : Int := (s.reg.read rA + BitVec.ofInt 32 off.toInt).toInt
    0 ≤ ea → ea < (s.config.dmemWords : Int) →
    ∃ t u, exec (.lw hi rA rB off) s = .next t ∧ steps 4 t = .next u ∧
      u.reg = s.reg.write rB.val (Memory.read s.config.dmemFill s.dmem ea.toNat) ∧
      u.dmem = s.dmem ∧ u.imem = s.imem ∧ u.config = s.config ∧
      u.pc = s.pc + (if s.config.stallCheckNonreaders = true ∧ rB = 0 then 4 else 5) ∧ u.cycles = s.cycles + 5 ∧
      u.wbend.instr = encode (.lw hi rA rB off)

/-- SW (R161, R162): the word at index `signed(reg[rA] + word(off))` of data memory holds register rB,
every other word of it, every register and instruction memory are as before (20_memory R64). Data
memory in canonical form. -/
def Obligations.SwCompletes : Prop :=
  ∀ (s : State) (hi : BitVec 7) (rA rB : Reg) (off : BitVec 16),
    (Instr.sw hi rA rB off).wellFormed s.config.highBits = true → s.Idle → s.noopsBehind 4 →
    Memory.wf s.config.dmemFill s.config.dmemWords s.dmem = true →
    let ea : Int := (s.reg.read rA + BitVec.ofInt 32 off.toInt).toInt
    0 ≤ ea → ea < (s.config.dmemWords : Int) →
    ∃ t u, exec (.sw hi rA rB off) s = .next t ∧ steps 4 t = .next u ∧
      (∀ a : Nat, Memory.read s.config.dmemFill u.dmem a =
        if a = ea.toNat then s.reg.read rB else Memory.read s.config.dmemFill s.dmem a) ∧
      u.reg = s.reg ∧ u.imem = s.imem ∧ u.config = s.config ∧ u.pc = s.pc + 5 ∧ u.cycles = s.cycles + 5 ∧
      u.wbend.instr = encode (.sw hi rA rB off)

/-- LW and SW with an index outside data memory (R160, R161, 20_memory R58; D16, log 14): the meaning
answers a next state, the instruction reaches Memory with no register and no data word changed, and the
cycle that would access faults with `DataOutOfRange`. -/
def Obligations.LoadAndStoreTrapOutOfRange : Prop :=
  ∀ (s : State) (i : Instr) (hi : BitVec 7) (rA rB : Reg) (off : BitVec 16),
    (i = .lw hi rA rB off ∨ i = .sw hi rA rB off) →
    i.wellFormed s.config.highBits = true → s.Idle → s.noopsBehind 4 →
    let ea : Int := (s.reg.read rA + BitVec.ofInt 32 off.toInt).toInt
    ¬ (0 ≤ ea ∧ ea < (s.config.dmemWords : Int)) →
    ∃ t u, exec i s = .next t ∧ steps 2 t = .next u ∧ u.reg = s.reg ∧ u.dmem = s.dmem ∧
      step u = .fault (.raised (.dataOutOfRange ea) [])

/-- BEQ (43_branch R170, R171): three cycles after it is issued `pc` is the address behind the branch
plus the offset if the registers are equal, all 32 bits, and has gone on sequentially if not; registers
and memories are as before. -/
def Obligations.BeqCompletes : Prop :=
  ∀ (s : State) (hi : BitVec 7) (rA rB : Reg) (off : BitVec 16),
    (Instr.beq hi rA rB off).wellFormed s.config.highBits = true → s.Idle → s.noopsBehind 4 →
    ∃ t u, exec (.beq hi rA rB off) s = .next t ∧ steps 3 t = .next u ∧
      u.pc = (if s.reg.read rA = s.reg.read rB then s.pc + 1 + off.toInt else s.pc + 4) ∧
      u.reg = s.reg ∧ u.dmem = s.dmem ∧ u.imem = s.imem ∧ u.config = s.config ∧ u.cycles = s.cycles + 4 ∧
      u.memwb.instr = encode (.beq hi rA rB off)

/-- HALT (44 R180, 70_reset R226): it stops the machine when it is in WB/END, the fifth cycle's end,
with registers and memories as before; every further step leaves that state (log 19). -/
def Obligations.HaltCompletes : Prop :=
  ∀ (s : State) (hi : BitVec 7) (rA rB : Reg) (f : BitVec 16),
    (Instr.halt hi rA rB f).wellFormed s.config.highBits = true → s.Idle → s.noopsBehind 4 →
    ∃ t u, exec (.halt hi rA rB f) s = .next t ∧ steps 4 t = .next u ∧
      u.wbend.instr = encode (.halt hi rA rB f) ∧ (∀ n, run n u = .halted u) ∧
      u.reg = s.reg ∧ u.dmem = s.dmem ∧ u.imem = s.imem ∧ u.config = s.config ∧ u.cycles = s.cycles + 5

/-- NOOP, opcode 5 and words with bits 31:25 set (44 R181, R182): they pass the whole pipeline and
change no register and no memory. -/
def Obligations.NoopAndUnrecognisedWordsComplete : Prop :=
  ∀ (s : State) (i : Instr),
    ((∃ hi rA rB f, i = .noop hi rA rB f) ∨ (∃ hi rA rB f, i = .unrecOp5 hi rA rB f) ∨
      (∃ hi op rA rB f, i = .unrecHigh hi op rA rB f)) →
    i.wellFormed s.config.highBits = true → s.Idle → s.noopsBehind 4 →
    ∃ t u, exec i s = .next t ∧ steps 4 t = .next u ∧ u.wbend.instr = encode i ∧
      u.reg = s.reg ∧ u.dmem = s.dmem ∧ u.imem = s.imem ∧ u.config = s.config ∧ u.pc = s.pc + 5 ∧
      u.cycles = s.cycles + 5

/-! ## The pipeline against the sequential reference (70_reset R230, R231, R233) -/

/-- A step of the sequential reference is the "Sequential effect" of its instruction's rule, and `Stop` at
a HALT (R230, 41_arithmetic R150, R151, 42_memory_ops R160 to R162, 43_branch R170, R171, 44 R180 to
R182). The faults are D16 (log 14), the wrap is D12 (log 12). -/
def Obligations.ReferenceStepFollowsTheRules : Prop :=
  ∀ (c : Config) (imem : Memory) (t : RefState),
    (¬ (0 ≤ t.pc ∧ t.pc < (c.imemWords : Int)) → seqStep c imem t = .fault (.fetchOutOfRange t.pc)) ∧
    (0 ≤ t.pc → t.pc < (c.imemWords : Int) →
      let w := Memory.read c.imemFill imem t.pc.toNat
      let kind := kindOf c.highBits w
      let a := t.reg.read (fieldA w)
      let b := t.reg.read (fieldB w)
      let off := (field16 w).toInt
      let ea := (a + BitVec.ofInt 32 off).toInt
      let d := namedDestination c w
      (kind = .HALT → seqStep c imem t = .stop t) ∧
      (kind = .ADD → seqStep c imem t =
        if d < 8 then .next ⟨t.reg.write d (a + b), t.pc + 1, t.dmem⟩ else .fault (.destOutOfRange d)) ∧
      (kind = .NOR → seqStep c imem t =
        if d < 8 then .next ⟨t.reg.write d (~~~(a ||| b)), t.pc + 1, t.dmem⟩ else .fault (.destOutOfRange d)) ∧
      (kind = .LW → seqStep c imem t =
        if 0 ≤ ea ∧ ea < (c.dmemWords : Int) then
          .next ⟨t.reg.write (fieldB w).val (Memory.read c.dmemFill t.dmem ea.toNat), t.pc + 1, t.dmem⟩
        else .fault (.dataOutOfRange ea)) ∧
      (kind = .SW → seqStep c imem t =
        if 0 ≤ ea ∧ ea < (c.dmemWords : Int) then
          .next ⟨t.reg, t.pc + 1, Memory.write c.dmemFill t.dmem ea.toNat b⟩
        else .fault (.dataOutOfRange ea)) ∧
      (kind = .BEQ → seqStep c imem t = .next ⟨t.reg, if a = b then t.pc + 1 + off else t.pc + 1, t.dmem⟩) ∧
      (kind ∈ ([.NOOP, .UNREC] : List Kind) → seqStep c imem t = .next ⟨t.reg, t.pc + 1, t.dmem⟩))

/-- A run of the reference follows its steps and counts them (R230, R233): it stops at a HALT, which it
does not count; each other instruction counts one, one more stall if it is a LW and the next one
executed is compared with its destination, and one more taken branch if it is a BEQ whose registers are
equal. -/
def Obligations.ReferenceRunCounts : Prop :=
  ∀ (c : Config) (imem : Memory) (n : Nat) (r : RefRun) (t : RefState),
    RefRun.start t = ⟨t, 0, 0, 0⟩ ∧
    (seqStep c imem r.state = .stop t → seqRun c imem (n + 1) r = .stopped r) ∧
    (∀ reason, seqStep c imem r.state = .fault reason → seqRun c imem (n + 1) r = .faulted r reason) ∧
    (seqStep c imem r.state = .next t →
      let w := Memory.read c.imemFill imem r.state.pc.toNat
      let stalled := loadUsePair c w (Memory.read c.imemFill imem t.pc.toNat)
      let branched := kindOf c.highBits w = .BEQ ∧ r.state.reg.read (fieldA w) = r.state.reg.read (fieldB w)
      ∃ stalls taken : Nat, seqRun c imem (n + 1) r = seqRun c imem n ⟨t, r.executed + 1, stalls, taken⟩ ∧
        (stalled → stalls = r.stalls + 1) ∧ (¬ stalled → stalls = r.stalls) ∧
        (branched → taken = r.taken + 1) ∧ (¬ branched → taken = r.taken))

/-- R231 (a), (b), (d): a run of the pipeline that halts ends with the registers of the sequential
reference at its HALT, with its data memory, on top of it the store of a SW in the word behind the
HALT, and with the HALT and that word in WB/END and MEM/WB. -/
def Obligations.PipelineAgreesWithTheReference : Prop :=
  ∀ (p : LaunchParams) (program : List Word) (s P : State) (n : Nat),
    launch p program = .ok s → run n s = .halted P →
    ∃ (k : Nat) (r : RefRun), seqRun s.config s.imem k (RefRun.start ⟨s.reg, 0, s.dmem⟩) = .stopped r ∧
      P.reg = r.state.reg ∧
      P.dmem = (let w := fetchWord s.config s.imem (r.state.pc + 1)
        if kindOf s.config.highBits w = .SW then
          Memory.write s.config.dmemFill r.state.dmem
            (signed (r.state.reg.read (fieldA w) + wordOf (sext16 (field16 w)))).toNat (r.state.reg.read (fieldB w))
        else r.state.dmem) ∧
      P.wbend.instr = fetchWord s.config s.imem r.state.pc ∧
      P.memwb.instr = fetchWord s.config s.imem (r.state.pc + 1)

/-- R231 (c), R233: the cycle count of a run that halts is N + S + 3 T + 5, with N the instructions the
reference executes before the HALT, S its load-use stalls and T its taken branches. -/
def Obligations.CycleCountFormula : Prop :=
  ∀ (p : LaunchParams) (program : List Word) (s P : State) (n : Nat),
    launch p program = .ok s → run n s = .halted P →
    ∃ (k : Nat) (r : RefRun), seqRun s.config s.imem k (RefRun.start ⟨s.reg, 0, s.dmem⟩) = .stopped r ∧
      P.cycles = r.executed + r.stalls + 3 * r.taken + 5
end

