-- ==== Sys2Proof/Laws/Decode.lean ====
section
/-! SUPPORT. The fields of an assembled word, and the word of its fields. -/

namespace Sys2Proof

variable (hi : BitVec 7) (op : BitVec 3) (a b : Reg) (f : BitVec 16)

/-- Bit `i` of an assembled word, by the field it falls in (R71). -/
theorem assembleWord_getLsbD (i : Nat) :
    (assembleWord hi op a b f).getLsbD i =
      if i < 16 then f.getLsbD i
      else if i < 19 then (BitVec.ofFin b : BitVec 3).getLsbD (i - 16)
      else if i < 22 then (BitVec.ofFin a : BitVec 3).getLsbD (i - 19)
      else if i < 25 then op.getLsbD (i - 22)
      else hi.getLsbD (i - 25) := by
  unfold assembleWord
  simp only [BitVec.getLsbD_append]
  have c1 : i - 16 < 3 ↔ i < 19 ∨ i < 16 := by omega
  have e1 : i - 16 - 3 = i - 19 := by omega
  have c2 : i - 19 < 3 ↔ i < 22 := by omega
  have e2 : i - 19 - 3 = i - 22 := by omega
  have c3 : i - 22 < 3 ↔ i < 25 := by omega
  have e3 : i - 22 - 3 = i - 25 := by omega
  by_cases h1 : i < 16
  · simp [h1]
  · simp only [h1, if_false, c1, or_false, e1, c2, e2, c3, e3]

@[simp] theorem fieldHi_assembleWord : fieldHi (assembleWord hi op a b f) = hi := by
  apply BitVec.eq_of_getLsbD_eq
  intro i h
  have t1 : ¬ 25 + i < 16 := by omega
  have t2 : ¬ 25 + i < 19 := by omega
  have t3 : ¬ 25 + i < 22 := by omega
  have t4 : ¬ 25 + i < 25 := by omega
  simp [fieldHi, assembleWord_getLsbD, h, t1, t2, t3]

@[simp] theorem fieldOp_assembleWord : fieldOp (assembleWord hi op a b f) = op := by
  apply BitVec.eq_of_getLsbD_eq
  intro i h
  have t1 : ¬ 22 + i < 16 := by omega
  have t2 : ¬ 22 + i < 19 := by omega
  have t4 : 22 + i < 25 := by omega
  simp [fieldOp, assembleWord_getLsbD, h, t1, t2, t4]

@[simp] theorem fieldA_assembleWord : fieldA (assembleWord hi op a b f) = a := by
  have key : (assembleWord hi op a b f).extractLsb' 19 3 = (BitVec.ofFin a : BitVec 3) := by
    apply BitVec.eq_of_getLsbD_eq
    intro i h
    have t1 : ¬ 19 + i < 16 := by omega
    have t3 : 19 + i < 22 := by omega
    simp [assembleWord_getLsbD, h, t1, t3]
  simp only [fieldA, key]

@[simp] theorem fieldB_assembleWord : fieldB (assembleWord hi op a b f) = b := by
  have key : (assembleWord hi op a b f).extractLsb' 16 3 = (BitVec.ofFin b : BitVec 3) := by
    apply BitVec.eq_of_getLsbD_eq
    intro i h
    have t2 : 16 + i < 19 := by omega
    simp [assembleWord_getLsbD, h, t2]
  simp only [fieldB, key]

@[simp] theorem field16_assembleWord : field16 (assembleWord hi op a b f) = f := by
  apply BitVec.eq_of_getLsbD_eq
  intro i h
  simp [field16, assembleWord_getLsbD, h]

/-- A word is the concatenation of its fields (R71, R81). -/
theorem assembleWord_fields (w : Word) :
    assembleWord (fieldHi w) (fieldOp w) (fieldA w) (fieldB w) (field16 w) = w := by
  apply BitVec.eq_of_getLsbD_eq
  intro i h
  rw [assembleWord_getLsbD]
  have ha : (BitVec.ofFin (fieldA w) : BitVec 3) = w.extractLsb' 19 3 := rfl
  have hb : (BitVec.ofFin (fieldB w) : BitVec 3) = w.extractLsb' 16 3 := rfl
  rw [ha, hb]
  unfold fieldHi fieldOp field16
  simp only [BitVec.getLsbD_extractLsb']
  split
  · next h1 => simp [h1]
  · split
    · next h1 h2 =>
      have t : i - 16 < 3 := by omega
      have e : 16 + (i - 16) = i := by omega
      simp [t, e]
    · split
      · next h1 h2 h3 =>
        have t : i - 19 < 3 := by omega
        have e : 19 + (i - 19) = i := by omega
        simp [t, e]
      · split
        · next h1 h2 h3 h4 =>
          have t : i - 22 < 3 := by omega
          have e : 22 + (i - 22) = i := by omega
          simp [t, e]
        · next h1 h2 h3 h4 =>
          have t : i - 25 < 7 := by omega
          have e : 25 + (i - 25) = i := by omega
          simp [t, e]

/-- Under `unrecognised` a word with a bit of 31:25 set is UNREC_HIGH (R76). -/
theorem decode_of_high {w : Word} (h : fieldHi w ≠ 0) :
    decode .unrecognised w = .unrecHigh (fieldHi w) (fieldOp w) (fieldA w) (fieldB w) (field16 w) := by
  unfold decode
  simp only [bne_iff_ne, ne_eq]
  exact if_pos h

/-- Every other word decodes by its opcode field (R74 to R76). -/
theorem decode_of_op {p : HighBitsPolicy} {w : Word} (h : p = .ignore ∨ fieldHi w = 0) :
    decode p w = decodeOp (fieldOp w) (fieldHi w) (fieldA w) (fieldB w) (field16 w) := by
  cases p with
  | ignore => rfl
  | unrecognised =>
    rcases h with h | h
    · cases h
    · unfold decode
      simp [h]

/-- An opcode is one of eight numbers. -/
theorem op_cases (op : BitVec 3) :
    op = 0 ∨ op = 1 ∨ op = 2 ∨ op = 3 ∨ op = 4 ∨ op = 5 ∨ op = 6 ∨ op = 7 := by
  revert op
  decide

/-- Dispatch on the opcode keeps the other fields. -/
theorem decodeOp_fields :
    (decodeOp op hi a b f).hi = hi ∧ (decodeOp op hi a b f).rA = a ∧ (decodeOp op hi a b f).rB = b ∧
      (decodeOp op hi a b f).f16 = f := by
  rcases op_cases op with h | h | h | h | h | h | h | h <;> subst h <;> exact ⟨rfl, rfl, rfl, rfl⟩

/-- The decoded instruction's fields are the word's, whatever its kind (R73). -/
theorem decode_fields (p : HighBitsPolicy) (w : Word) :
    (decode p w).hi = fieldHi w ∧ (decode p w).rA = fieldA w ∧ (decode p w).rB = fieldB w ∧
      (decode p w).f16 = field16 w := by
  by_cases h : p = .ignore ∨ fieldHi w = 0
  · rw [decode_of_op h]
    exact decodeOp_fields _ _ _ _ _
  · have hp : p = .unrecognised := by
      cases p with
      | unrecognised => rfl
      | ignore => exact absurd (Or.inl rfl) h
    subst hp
    rw [decode_of_high (fun h0 => h (Or.inr h0))]
    exact ⟨rfl, rfl, rfl, rfl⟩

/-- `sext_16` is the two's-complement reading of the 16-bit field. -/
theorem sext16_eq_toInt (v : BitVec 16) : sext16 v = v.toInt := by
  unfold sext16
  rw [BitVec.toInt_eq_toNat_cond]
  have := v.isLt
  split <;> split <;> omega

/-- An offset lies in -32768 to 32767 (R78). -/
theorem sext16_range (v : BitVec 16) : -32768 ≤ sext16 v ∧ sext16 v ≤ 32767 := by
  have := v.isLt
  unfold sext16
  split <;> omega

end Sys2Proof
end

