-- ==== Sys2Proof/Laws/Memory.lean ====
section
/-! SUPPORT. What the register and memory operations do: reads after writes, and the canonical form
that every memory operation keeps. -/

namespace Sys2Proof.Machine

/-! ## Registers -/

/-- A register written reads as the value written. -/
theorem read_write_same (r : Regs) (i : Reg) (v : Word) : (r.write i.val v).read i = v := by
  simp [Regs.write, Regs.read]

/-- Writing a register leaves the others as they were. -/
theorem read_write_other (r : Regs) (d : Nat) (i : Reg) (v : Word) (h : i.val ≠ d) : (r.write d v).read i = r.read i := by
  unfold Regs.write Regs.read
  split
  · simp [Ne.symm h]
  · rfl

/-- One lemma for both: a read after a write. -/
theorem read_write (r : Regs) (d : Nat) (i : Reg) (v : Word) :
    (r.write d v).read i = if i.val = d then v else r.read i := by
  split
  · next h => subst h; exact read_write_same r i v
  · next h => exact read_write_other r d i v h

/-- An index of 8 or more names no register. -/
theorem write_outside (r : Regs) (d : Nat) (v : Word) (h : ¬ d < 8) : r.write d v = r := by
  simp [Regs.write, h]

/-- Two register files with equal registers are equal. -/
theorem regs_ext {r t : Regs} (h : ∀ i : Reg, r.read i = t.read i) : r = t := by
  apply Vector.ext
  intro i hi
  exact h ⟨i, hi⟩

/-! ## The canonical form -/

/-- A canonical memory from `low` on is one from any lower index on. -/
theorem wfFrom_mono {fill : Word} {size low low' : Nat} {m : Memory} (h : Memory.wfFrom fill size low m = true)
    (hl : low' ≤ low) : Memory.wfFrom fill size low' m = true := by
  cases m with
  | nil => rfl
  | cons e rest =>
    simp only [Memory.wfFrom, Bool.and_eq_true, decide_eq_true_eq] at h ⊢
    exact ⟨⟨⟨by omega, h.1.1.2⟩, h.1.2⟩, h.2⟩

/-- In a canonical memory from `low` on, a lower index reads as the fill word. -/
theorem read_below {fill : Word} {size low : Nat} {m : Memory} (h : Memory.wfFrom fill size low m = true)
    {a : Nat} (ha : a < low) : Memory.read fill m a = fill := by
  induction m generalizing low with
  | nil => rfl
  | cons e rest ih =>
    simp only [Memory.wfFrom, Bool.and_eq_true, decide_eq_true_eq] at h
    have hne : a ≠ e.1 := by omega
    simp only [Memory.read, hne, if_false]
    exact ih h.2 (by omega)

/-- A write keeps the canonical form. -/
theorem write_wfFrom {fill : Word} {size low a : Nat} {v : Word} {m : Memory}
    (h : Memory.wfFrom fill size low m = true) (hl : low ≤ a) (ha : a < size) :
    Memory.wfFrom fill size low (Memory.write fill m a v) = true := by
  induction m generalizing low with
  | nil =>
    by_cases hv : v = fill <;> simp [Memory.write, Memory.wfFrom, hv, hl, ha]
  | cons e rest ih =>
    obtain ⟨b, u⟩ := e
    simp only [Memory.wfFrom, Bool.and_eq_true, decide_eq_true_eq] at h
    obtain ⟨⟨⟨hlb, hbs⟩, hu⟩, hrest⟩ := h
    simp only [Memory.write]
    split
    · next hab =>
      split
      · simp [Memory.wfFrom, hlb, hbs, hrest]; simpa using hu
      · next hv =>
        simp only [Memory.wfFrom, Bool.and_eq_true, decide_eq_true_eq]
        exact ⟨⟨⟨hl, ha⟩, by simpa using hv⟩, ⟨⟨by omega, hbs⟩, hu⟩, hrest⟩
    · next hab =>
      split
      · next heq =>
        split
        · exact wfFrom_mono hrest (by omega)
        · next hv =>
          subst heq
          simp only [Memory.wfFrom, Bool.and_eq_true, decide_eq_true_eq]
          exact ⟨⟨⟨hl, ha⟩, by simpa using hv⟩, hrest⟩
      · next hne =>
        simp only [Memory.wfFrom, Bool.and_eq_true, decide_eq_true_eq]
        exact ⟨⟨⟨hlb, hbs⟩, hu⟩, ih hrest (by omega)⟩

/-- A write keeps the canonical form of a memory. -/
theorem write_wf {fill : Word} {size a : Nat} {v : Word} {m : Memory} (h : Memory.wf fill size m = true) (ha : a < size) :
    Memory.wf fill size (Memory.write fill m a v) = true :=
  write_wfFrom h (Nat.zero_le a) ha

/-- The image of a list of words is canonical where it fits. -/
theorem ofWords_wfFrom (fill : Word) (size : Nat) (ws : List Word) (a : Nat) (h : a + ws.length ≤ size) :
    Memory.wfFrom fill size a (Memory.ofWords fill a ws) = true := by
  induction ws generalizing a with
  | nil => rfl
  | cons v rest ih =>
    simp only [List.length_cons] at h
    have hr := ih (a + 1) (by omega)
    simp only [Memory.ofWords]
    split
    · exact wfFrom_mono hr (by omega)
    · next hv =>
      simp only [Memory.wfFrom, Bool.and_eq_true, decide_eq_true_eq]
      exact ⟨⟨⟨le_refl a, by omega⟩, by simpa using hv⟩, hr⟩

/-! ## Reads after writes -/

/-- In a canonical memory a word read after a write is the word written, or what it was before. -/
theorem read_write_from {fill : Word} {size low : Nat} {m : Memory} (h : Memory.wfFrom fill size low m = true)
    (a b : Nat) (v : Word) :
    Memory.read fill (Memory.write fill m a v) b = if b = a then v else Memory.read fill m b := by
  induction m generalizing low with
  | nil =>
    by_cases hv : v = fill
    · subst hv; simp [Memory.write, Memory.read]
    · simp [Memory.write, Memory.read, hv]
  | cons e rest ih =>
    obtain ⟨c, u⟩ := e
    have hwf := h
    simp only [Memory.wfFrom, Bool.and_eq_true, decide_eq_true_eq] at h
    simp only [Memory.write]
    split
    · next hac =>
      split
      · next hv =>
        by_cases hb : b = a
        · subst hb hv
          have hne : b ≠ c := by omega
          simp only [Memory.read, if_true, hne, if_false]
          exact read_below h.2 (by omega)
        · simp [hb]
      · simp only [Memory.read]
    · next hac =>
      split
      · next hc =>
        subst hc
        split
        · next hv =>
          by_cases hb : b = a
          · subst hb hv
            simp only [if_true]
            exact read_below h.2 (by omega)
          · simp [Memory.read, hb]
        · by_cases hb : b = a <;> simp [Memory.read, hb]
      · next hne =>
        by_cases hb : b = c
        · subst hb
          simp [Memory.read, Ne.symm hne]
        · simp only [Memory.read, hb, if_false]
          exact ih h.2

/-- A read after a write of a canonical memory. -/
theorem mem_read_write {fill : Word} {size : Nat} {m : Memory} (h : Memory.wf fill size m = true) (a b : Nat) (v : Word) :
    Memory.read fill (Memory.write fill m a v) b = if b = a then v else Memory.read fill m b :=
  read_write_from h a b v

/-- The image of a list of words reads back as the list, and as the fill word past it. -/
theorem read_ofWords (fill : Word) (ws : List Word) (a b : Nat) :
    Memory.read fill (Memory.ofWords fill a ws) b = if a ≤ b then ws.getD (b - a) fill else fill := by
  induction ws generalizing a with
  | nil => simp [Memory.ofWords, Memory.read]
  | cons v rest ih =>
    have key : Memory.read fill (Memory.ofWords fill (a + 1) rest) b
        = if a + 1 ≤ b then rest.getD (b - (a + 1)) fill else fill := ih (a + 1)
    simp only [Memory.ofWords]
    by_cases hb : b = a
    · subst hb
      by_cases hv : v = fill
      · simp [hv, key]
      · simp [hv, Memory.read]
    · have hread : ∀ m, Memory.read fill ((a, v) :: m) b = Memory.read fill m b := by
        intro m; simp [Memory.read, hb]
      have hboth : Memory.read fill (if v = fill then Memory.ofWords fill (a + 1) rest
          else (a, v) :: Memory.ofWords fill (a + 1) rest) b = Memory.read fill (Memory.ofWords fill (a + 1) rest) b := by
        split
        · rfl
        · exact hread _
      rw [hboth, key]
      by_cases hab : a ≤ b
      · have h1 : a + 1 ≤ b := by omega
        have h2 : b - a = (b - (a + 1)) + 1 := by omega
        simp [hab, h1, h2]
      · have h1 : ¬ a + 1 ≤ b := by omega
        simp [hab, h1]

/-! ## Range checks and the end of a cycle -/

/-- The range check, as inequalities. -/
theorem inRange_iff (a : Int) (n : Nat) : inRange a n = true ↔ 0 ≤ a ∧ a < (n : Int) := by
  simp [inRange]

/-- A cycle answers a next state exactly when no check failed. -/
theorem settle_next {reasons : List FaultReason} {s' t : State} :
    settle reasons s' = .next t ↔ reasons = [] ∧ s' = t := by
  cases reasons <;> simp [settle]

/-- A cycle faults exactly with the reasons that failed. -/
theorem settle_fault {reasons : List FaultReason} {s' : State} {f : Fault} :
    settle reasons s' = .fault f ↔ reasons = f.reasons := by
  cases reasons with
  | nil => simp [settle, Fault.reasons]
  | cons r rs =>
    cases f with
    | raised r' rs' => simp [settle, Fault.reasons]

/-- A cycle answers no refusal. -/
theorem settle_not_refused {reasons : List FaultReason} {s' : State} {r : Refusal} : settle reasons s' ≠ .refused r := by
  cases reasons <;> simp [settle]

end Sys2Proof.Machine
end

