-- ==== Sys2Proof/Laws/Paths.lean ====
section
/-! SUPPORT. The kind table (30_encoding section 4) read off the paths: one lemma per column. -/

namespace Sys2Proof.Machine

variable (c : Config) (w : Word)

/-- The branch column: only a BEQ branches (R112). -/
theorem branches_iff : (wordPath c w).branches = true ↔ kindOf c.highBits w = .BEQ := by
  unfold wordPath kindOf
  cases decode c.highBits w <;>
    simp [pathOf, addPath, norPath, lwPath, swPath, beqPath, unrecOp5Path, haltPath, noopPath, unrecHighPath, Instr.kind]

/-- The halt column: only a HALT halts (R226). -/
theorem halts_iff : (wordPath c w).halts = true ↔ kindOf c.highBits w = .HALT := by
  unfold wordPath kindOf
  cases decode c.highBits w <;>
    simp [pathOf, addPath, norPath, lwPath, swPath, beqPath, unrecOp5Path, haltPath, noopPath, unrecHighPath, Instr.kind]

/-- `takesForwarding` (R84). -/
theorem takesForwarding_iff :
    (wordPath c w).takesForwarding = true ↔ kindOf c.highBits w ≠ .HALT ∧ kindOf c.highBits w ≠ .NOOP := by
  unfold wordPath kindOf
  cases decode c.highBits w <;>
    simp [pathOf, addPath, norPath, lwPath, swPath, beqPath, unrecOp5Path, haltPath, noopPath, unrecHighPath, Instr.kind]

/-- The sources of EX/MEM (R108). -/
theorem forwardsAlu_iff :
    (wordPath c w).forwardsAlu = true ↔ kindOf c.highBits w = .ADD ∨ kindOf c.highBits w = .NOR := by
  unfold wordPath kindOf
  cases decode c.highBits w <;>
    simp [pathOf, addPath, norPath, lwPath, swPath, beqPath, unrecOp5Path, haltPath, noopPath, unrecHighPath, Instr.kind]

/-- The data access column (R113): a LW reads. -/
theorem access_read_iff : (wordPath c w).access = .read ↔ kindOf c.highBits w = .LW := by
  unfold wordPath kindOf
  cases decode c.highBits w <;>
    simp [pathOf, addPath, norPath, lwPath, swPath, beqPath, unrecOp5Path, haltPath, noopPath, unrecHighPath, Instr.kind]

/-- The data access column (R113): a SW writes. -/
theorem access_write_iff : (wordPath c w).access = .write ↔ kindOf c.highBits w = .SW := by
  unfold wordPath kindOf
  cases decode c.highBits w <;>
    simp [pathOf, addPath, norPath, lwPath, swPath, beqPath, unrecOp5Path, haltPath, noopPath, unrecHighPath, Instr.kind]

/-- The destination of an ADD or NOR (R79, R82). -/
theorem destOf_arith (h : kindOf c.highBits w = .ADD ∨ kindOf c.highBits w = .NOR) :
    destOf c w = some (arithDest c (field16 w)) := by
  have hf := (decode_fields c.highBits w).2.2.2
  unfold destOf wordPath
  unfold kindOf at h
  cases hd : decode c.highBits w <;> simp [hd, Instr.kind, Instr.f16] at h hf <;> simp [pathOf, addPath, norPath, hf]

/-- The destination of a LW (R82). -/
theorem destOf_lw (h : kindOf c.highBits w = .LW) : destOf c w = some (fieldB w).val := by
  have hf := (decode_fields c.highBits w).2.2.1
  unfold destOf wordPath
  unfold kindOf at h
  cases hd : decode c.highBits w <;> simp [hd, Instr.kind, Instr.rB] at h hf
  simp [pathOf, lwPath, hf]

/-- Every other kind writes no register (R82). -/
theorem destOf_other (h : kindOf c.highBits w ≠ .ADD ∧ kindOf c.highBits w ≠ .NOR ∧ kindOf c.highBits w ≠ .LW) :
    destOf c w = none := by
  unfold destOf wordPath
  unfold kindOf at h
  cases hd : decode c.highBits w <;> simp [hd, Instr.kind] at h <;>
    simp [pathOf, swPath, beqPath, unrecOp5Path, haltPath, noopPath, unrecHighPath]

/-- The ALU's function by kind (R111): ADD. -/
theorem alu_add (h : kindOf c.highBits w = .ADD) (a b : Word) (off : Int) : (wordPath c w).alu a b off = a + b := by
  unfold wordPath
  unfold kindOf at h
  cases hd : decode c.highBits w <;> simp [hd, Instr.kind] at h
  simp [pathOf, addPath]

/-- NOR. -/
theorem alu_nor (h : kindOf c.highBits w = .NOR) (a b : Word) (off : Int) :
    (wordPath c w).alu a b off = ~~~(a ||| b) := by
  unfold wordPath
  unfold kindOf at h
  cases hd : decode c.highBits w <;> simp [hd, Instr.kind] at h
  simp [pathOf, norPath]

/-- LW and SW: the effective address (R162). -/
theorem alu_address (h : kindOf c.highBits w = .LW ∨ kindOf c.highBits w = .SW) (a b : Word) (off : Int) :
    (wordPath c w).alu a b off = a + wordOf off := by
  unfold wordPath
  unfold kindOf at h
  cases hd : decode c.highBits w <;> simp [hd, Instr.kind] at h <;> simp [pathOf, lwPath, swPath, effectiveAddress]

/-- Every other kind: 0 (R111). -/
theorem alu_other (h : kindOf c.highBits w ≠ .ADD ∧ kindOf c.highBits w ≠ .NOR ∧ kindOf c.highBits w ≠ .LW ∧
    kindOf c.highBits w ≠ .SW) (a b : Word) (off : Int) : (wordPath c w).alu a b off = 0 := by
  unfold wordPath
  unfold kindOf at h
  cases hd : decode c.highBits w <;> simp [hd, Instr.kind] at h <;>
    simp [pathOf, beqPath, unrecOp5Path, haltPath, noopPath, unrecHighPath]

/-- `stallFields` of a LW is field A alone (R83). -/
theorem stallChecks_lw (h : kindOf c.highBits w = .LW) (d : Reg) : stallChecks c w d = true ↔ fieldA w = d := by
  unfold stallChecks wordPath
  unfold kindOf at h
  cases hd : decode c.highBits w <;> simp [hd, Instr.kind] at h
  simp [pathOf, lwPath, Path.stallsOn]

/-- `stallFields` of the other kinds that read registers is both fields (R83). -/
theorem stallChecks_reader (h : kindOf c.highBits w = .ADD ∨ kindOf c.highBits w = .NOR ∨ kindOf c.highBits w = .SW ∨
    kindOf c.highBits w = .BEQ) (d : Reg) : stallChecks c w d = true ↔ fieldA w = d ∨ fieldB w = d := by
  unfold stallChecks wordPath
  unfold kindOf at h
  cases hd : decode c.highBits w <;> simp [hd, Instr.kind] at h <;>
    simp [pathOf, addPath, norPath, swPath, beqPath, Path.stallsOn]

/-- `stallFields` of the kinds that read none is both fields under STALL_CHECK_NONREADERS, else nothing (R83). -/
theorem stallChecks_nonreader (h : kindOf c.highBits w = .HALT ∨ kindOf c.highBits w = .NOOP ∨
    kindOf c.highBits w = .UNREC) (d : Reg) :
    stallChecks c w d = true ↔ c.stallCheckNonreaders = true ∧ (fieldA w = d ∨ fieldB w = d) := by
  unfold stallChecks wordPath
  unfold kindOf at h
  cases hd : decode c.highBits w <;> simp [hd, Instr.kind] at h <;>
    simp [pathOf, unrecOp5Path, haltPath, noopPath, unrecHighPath, Path.stallsOn] <;> tauto

end Sys2Proof.Machine
end

