-- ==== Sys2Proof/Laws/PerInstr.lean ====
section
/-! SUPPORT. Facts about every instruction as it is written, one lemma per constructor. The family
`Fields`: the encoder loses no field of an instruction (R71, R81). -/

namespace Sys2Proof.Laws.Fields

/-- Bits 31:25, A, B and the 16-bit field of the instruction's word are the instruction's. -/
def Statement (i : Instr) : Prop :=
  fieldHi (encode i) = i.hi ∧ fieldA (encode i) = i.rA ∧ fieldB (encode i) = i.rB ∧ field16 (encode i) = i.f16

theorem add (hi : BitVec 7) (rA rB : Reg) (dest : BitVec 16) : Statement (.add hi rA rB dest) := by
  simp [Statement, encode, Instr.hi, Instr.rA, Instr.rB, Instr.f16]

theorem nor (hi : BitVec 7) (rA rB : Reg) (dest : BitVec 16) : Statement (.nor hi rA rB dest) := by
  simp [Statement, encode, Instr.hi, Instr.rA, Instr.rB, Instr.f16]

theorem lw (hi : BitVec 7) (rA rB : Reg) (off : BitVec 16) : Statement (.lw hi rA rB off) := by
  simp [Statement, encode, Instr.hi, Instr.rA, Instr.rB, Instr.f16]

theorem sw (hi : BitVec 7) (rA rB : Reg) (off : BitVec 16) : Statement (.sw hi rA rB off) := by
  simp [Statement, encode, Instr.hi, Instr.rA, Instr.rB, Instr.f16]

theorem beq (hi : BitVec 7) (rA rB : Reg) (off : BitVec 16) : Statement (.beq hi rA rB off) := by
  simp [Statement, encode, Instr.hi, Instr.rA, Instr.rB, Instr.f16]

theorem unrecOp5 (hi : BitVec 7) (rA rB : Reg) (f16 : BitVec 16) : Statement (.unrecOp5 hi rA rB f16) := by
  simp [Statement, encode, Instr.hi, Instr.rA, Instr.rB, Instr.f16]

theorem halt (hi : BitVec 7) (rA rB : Reg) (f16 : BitVec 16) : Statement (.halt hi rA rB f16) := by
  simp [Statement, encode, Instr.hi, Instr.rA, Instr.rB, Instr.f16]

theorem noop (hi : BitVec 7) (rA rB : Reg) (f16 : BitVec 16) : Statement (.noop hi rA rB f16) := by
  simp [Statement, encode, Instr.hi, Instr.rA, Instr.rB, Instr.f16]

theorem unrecHigh (hi : BitVec 7) (op : BitVec 3) (rA rB : Reg) (f16 : BitVec 16) :
    Statement (.unrecHigh hi op rA rB f16) := by
  simp [Statement, encode, Instr.hi, Instr.rA, Instr.rB, Instr.f16]

end Sys2Proof.Laws.Fields
end

