-- ==== Sys2Proof/Laws/State.lean ====
section
/-! SUPPORT. The fields of a state after each update of it. -/

namespace Sys2Proof.Machine

variable (s : State) (w : Word)

@[simp] theorem advance_config : (s.advance w).config = s.config := rfl
@[simp] theorem advance_reg : (s.advance w).reg = s.nextReg := rfl
@[simp] theorem advance_pc : (s.advance w).pc = s.nextPc := rfl
@[simp] theorem advance_cycles : (s.advance w).cycles = s.cycles + 1 := rfl
@[simp] theorem advance_imem : (s.advance w).imem = s.imem := rfl
@[simp] theorem advance_dmem : (s.advance w).dmem = s.nextDmem := rfl
@[simp] theorem advance_ifid : (s.advance w).ifid = s.nextIfid w := rfl
@[simp] theorem advance_idex : (s.advance w).idex = s.nextIdex := rfl
@[simp] theorem advance_exmem : (s.advance w).exmem = s.nextExmem := rfl
@[simp] theorem advance_memwb : (s.advance w).memwb = s.memoryStage := rfl
@[simp] theorem advance_wbend : (s.advance w).wbend = s.retireStage := rfl

@[simp] theorem memoryStage_instr : s.memoryStage.instr = s.exmem.instr := rfl
@[simp] theorem retireStage_instr : s.retireStage.instr = s.memwb.instr := rfl
@[simp] theorem retireStage_writeData : s.retireStage.writeData = s.memwb.writeData := rfl
@[simp] theorem executeStage_instr : s.executeStage.instr = s.idex.instr := rfl
@[simp] theorem decodeStage_instr : s.decodeStage.instr = s.ifid.instr := rfl
@[simp] theorem decodeStage_pcPlus1 : s.decodeStage.pcPlus1 = s.ifid.pcPlus1 := rfl
@[simp] theorem decodeStage_offset : s.decodeStage.offset = sext16 (field16 s.ifid.instr) := rfl
@[simp] theorem decodeStage_readRegA : s.decodeStage.readRegA = s.reg.read (fieldA s.ifid.instr) := rfl
@[simp] theorem decodeStage_readRegB : s.decodeStage.readRegB = s.reg.read (fieldB s.ifid.instr) := rfl

section launched
variable (c : Config) (r : Regs) (im dm : Memory)

@[simp] theorem launched_config : (State.launched c r im dm).config = c := rfl
@[simp] theorem launched_reg : (State.launched c r im dm).reg = r := rfl
@[simp] theorem launched_pc : (State.launched c r im dm).pc = 0 := rfl
@[simp] theorem launched_cycles : (State.launched c r im dm).cycles = 0 := rfl
@[simp] theorem launched_imem : (State.launched c r im dm).imem = im := rfl
@[simp] theorem launched_dmem : (State.launched c r im dm).dmem = dm := rfl
@[simp] theorem launched_ifid_instr : (State.launched c r im dm).ifid.instr = noopWord := rfl
@[simp] theorem launched_idex_instr : (State.launched c r im dm).idex.instr = noopWord := rfl
@[simp] theorem launched_exmem_instr : (State.launched c r im dm).exmem.instr = noopWord := rfl
@[simp] theorem launched_memwb_instr : (State.launched c r im dm).memwb.instr = noopWord := rfl
@[simp] theorem launched_wbend_instr : (State.launched c r im dm).wbend.instr = noopWord := rfl

end launched

/-- Placing a word to fetch changes instruction memory only. -/
theorem withFetchWord_eq (nbits v : Nat) : s.withFetchWord nbits v = { s with imem := (s.withFetchWord nbits v).imem } := by
  unfold State.withFetchWord
  split <;> rfl

end Sys2Proof.Machine
end

