-- ==== Sys2Proof/Laws/Pipeline.lean ====
section
/-! SUPPORT. One lemma per stage and per hazard signal: what each latch becomes. -/

namespace Sys2Proof.Machine

variable {s : State} {w : Word}

/-! ## The canonical NOOP word, under every policy -/

@[simp] theorem decode_noopWord (p : HighBitsPolicy) : decode p noopWord = .noop 0 0 0 0 := by
  cases p <;> decide

@[simp] theorem kindOf_noopWord (p : HighBitsPolicy) : kindOf p noopWord = .NOOP := by
  simp [kindOf, Instr.kind]

@[simp] theorem wordPath_noopWord (c : Config) : wordPath c noopWord = noopPath c := by
  simp [wordPath, pathOf]

@[simp] theorem destOf_noopWord (c : Config) : destOf c noopWord = none := by
  simp [destOf, noopPath]

/-! ## The next latches -/

/-- A squash voids IF/ID (R121). -/
theorem nextIfid_taken (h : s.taken = true) : (s.nextIfid w).instr = noopWord := by
  simp [State.nextIfid, h]

/-- A stall without a squash holds IF/ID (R120). -/
theorem nextIfid_stall (ht : s.taken = false) (hs : s.stall = true) : s.nextIfid w = s.ifid := by
  simp [State.nextIfid, ht, hs]

/-- The normal advance of IF/ID (R102, R119). -/
theorem nextIfid_normal (ht : s.taken = false) (hs : s.stall = false) :
    s.nextIfid w = { instr := w, pcPlus1 := s.pc + 1 } := by
  simp [State.nextIfid, ht, hs]

/-- A squash or a stall puts a bubble into ID/EX (R120, R121). -/
theorem nextIdex_bubble (h : s.taken = true ∨ s.stall = true) : s.nextIdex = { s.decodeStage with instr := noopWord } := by
  rcases h with h | h <;> simp [State.nextIdex, h]

/-- The normal advance of ID/EX (R119). -/
theorem nextIdex_normal (ht : s.taken = false) (hs : s.stall = false) : s.nextIdex = s.decodeStage := by
  simp [State.nextIdex, ht, hs]

/-- A squash voids EX/MEM (R121). -/
theorem nextExmem_taken (h : s.taken = true) : s.nextExmem = { s.executeStage with instr := noopWord } := by
  simp [State.nextExmem, h]

/-- Without a squash EX/MEM advances, a stall or not (R119, R120). -/
theorem nextExmem_normal (h : s.taken = false) : s.nextExmem = s.executeStage := by
  simp [State.nextExmem, h]

/-- The next pc, in its three cases (R122). -/
theorem nextPc_taken (h : s.taken = true) : s.nextPc = s.exmem.branchTarget := by
  simp [State.nextPc, h]

theorem nextPc_stall (ht : s.taken = false) (hs : s.stall = true) : s.nextPc = s.pc := by
  simp [State.nextPc, ht, hs]

theorem nextPc_normal (ht : s.taken = false) (hs : s.stall = false) : s.nextPc = s.pc + 1 := by
  simp [State.nextPc, ht, hs]

/-! ## The stages behind Fetch -/

/-- No word but a writer changes a register (R23, R116). -/
theorem nextReg_none (h : destOf s.config s.memwb.instr = none) : s.nextReg = s.reg := by
  simp [State.nextReg, h]

/-- A writer changes its destination only (R116). -/
theorem nextReg_some {d : Nat} (h : destOf s.config s.memwb.instr = some d) :
    s.nextReg = s.reg.write d s.memwb.writeData := by
  simp [State.nextReg, h]

/-- Forwarding from one source, read at either operand (R109). -/
theorem forwardFrom_some (a b : Reg) (ops : Word × Word) (d : Nat) (v : Word) :
    forwardFrom a b ops (some d) v = (if a.val = d then v else ops.1, if b.val = d then v else ops.2) := rfl

@[simp] theorem forwardFrom_none (a b : Reg) (ops : Word × Word) (v : Word) : forwardFrom a b ops none v = ops := rfl

/-- Forwarding a write of the register file is reading it after the write, where the destination names
a register. -/
theorem forwardFrom_read (r : Regs) (a b : Reg) (d : Nat) (v : Word) :
    forwardFrom a b (r.read a, r.read b) (some d) v = ((r.write d v).read a, (r.write d v).read b) := by
  simp [forwardFrom, read_write]

/-- No fault of the stages behind Fetch: Writeback's destination is a register, and Memory's access is
in range. -/
theorem stageFaults_nil : s.stageFaults = [] ↔ s.writebackFault = [] ∧ s.memoryFault = [] := by
  simp [State.stageFaults]

/-- Writeback raises nothing exactly when its destination, if any, is a register (R117). -/
theorem writebackFault_nil : s.writebackFault = [] ↔ ∀ d, destOf s.config s.memwb.instr = some d → d < 8 := by
  unfold State.writebackFault
  cases destOf s.config s.memwb.instr with
  | none => simp
  | some d => by_cases h : d < 8 <;> simp [h]

/-- Memory raises nothing exactly when its access, if any, is in range (R58). -/
theorem memoryFault_nil : s.memoryFault = [] ↔ (s.access ≠ .none → inRange s.ea s.config.dmemWords = true) := by
  unfold State.memoryFault State.dataFault
  cases s.access <;> by_cases h : inRange s.ea s.config.dmemWords <;> simp [h]

/-- Only a SW changes data memory (R39, R113). -/
theorem nextDmem_of_not_write (h : s.access ≠ .write) : s.nextDmem = s.dmem := by
  unfold State.nextDmem
  cases hs : s.access <;> simp_all

/-- Data memory keeps its canonical form over a cycle that does not fault. -/
theorem nextDmem_wf (hf : s.memoryFault = []) (h : Memory.wf s.config.dmemFill s.config.dmemWords s.dmem = true) :
    Memory.wf s.config.dmemFill s.config.dmemWords s.nextDmem = true := by
  unfold State.nextDmem
  cases ha : s.access with
  | none => exact h
  | read => exact h
  | write =>
    have hr := (inRange_iff _ _).mp (memoryFault_nil.mp hf (by simp [ha]))
    exact write_wf h (by omega)

end Sys2Proof.Machine
end

