-- ==== Sys2Proof/Laws/Step.lean ====
section
/-! SUPPORT. Everything a meaning and a step can answer, said once. -/

namespace Sys2Proof.Machine

/-! ## The meanings -/

/-- Every meaning is the cycle that fetches the instruction's word. -/
theorem exec_eq_cycle (i : Instr) (s : State) : exec i s = cycle (encode i) s := by
  cases i <;> rfl

/-- A cycle answers a next state exactly when no stage behind Fetch faults, and then the assembled one. -/
theorem cycle_next {w : Word} {s t : State} : cycle w s = .next t ↔ s.stageFaults = [] ∧ s.advance w = t :=
  settle_next

/-- A meaning answers a next state exactly when no older instruction faults in its stage. -/
theorem exec_next {i : Instr} {s t : State} :
    exec i s = .next t ↔ s.stageFaults = [] ∧ s.advance (encode i) = t := by
  rw [exec_eq_cycle]; exact cycle_next

/-- A meaning faults exactly with the reasons of the stages behind Fetch. -/
theorem exec_fault {i : Instr} {s : State} {f : Fault} : exec i s = .fault f ↔ s.stageFaults = f.reasons := by
  rw [exec_eq_cycle]; exact settle_fault

/-- No meaning answers a refusal (R85). -/
theorem exec_not_refused (i : Instr) (s : State) (r : Refusal) : exec i s ≠ .refused r := by
  rw [exec_eq_cycle]; exact settle_not_refused

/-! ## The step -/

/-- A final state steps to itself. -/
theorem step_halted {s : State} (h : s.halted = true) : step s = .next s := by
  simp [step, h]

/-- A cycle whose `pc` is outside instruction memory answers no next state. -/
theorem cycleWithoutFetch_not_next {s t : State} (h : inRange s.pc s.config.imemWords = false) :
    cycleWithoutFetch s ≠ .next t := by
  simp [cycleWithoutFetch, settle_next, State.fetchFault, h]

/-- Everything a step that answers a next state can have done: nothing, in a final state; else one
cycle on the word fetched at `pc`, with no check failing. -/
theorem step_next {s t : State} (h : step s = .next t) :
    (s.halted = true ∧ t = s) ∨
    (s.halted = false ∧ inRange s.pc s.config.imemWords = true ∧ s.stageFaults = [] ∧
      t = s.advance (encode (decode s.config.highBits (s.ifetch s.pc)))) := by
  unfold step at h
  split at h
  · next hh => left; injection h with h; exact ⟨hh, h.symm⟩
  · next hh =>
    split at h
    · next hr =>
      right
      obtain ⟨hf, ht⟩ := exec_next.mp h
      exact ⟨by simpa using hh, hr, hf, ht.symm⟩
    · next hr => exact absurd h (cycleWithoutFetch_not_next (by simpa using hr))

/-- No step answers a refusal. -/
theorem step_not_refused (s : State) (r : Refusal) : step s ≠ .refused r := by
  unfold step
  split
  · simp
  · split
    · exact exec_not_refused _ _ _
    · exact settle_not_refused

/-- One step and then the rest. -/
theorem steps_succ_next {n : Nat} {s s' : State} (h : step s = .next s') : steps (n + 1) s = steps n s' := by
  simp [steps, h]

/-- A fault ends several steps. -/
theorem steps_succ_fault {n : Nat} {s : State} {f : Fault} (h : step s = .fault f) : steps (n + 1) s = .fault f := by
  simp [steps, h]

/-- The host's run, one step and then the rest. -/
theorem host_run_succ (M : Host.Core) (n : Nat) (s : M.State) :
    Host.Core.run M (n + 1) s = match M.step s with
      | .next s' => Host.Core.run M n s'
      | .fault r => .fault r
      | .refused r => .refused r := rfl

/-- Several steps: the host's run of the machine is `steps`. -/
theorem core_run_eq_steps (n : Nat) (s : State) : Host.Core.run Sys2Proof.core n s = steps n s := by
  induction n generalizing s with
  | zero => rfl
  | succ n ih =>
    have hrun := host_run_succ Sys2Proof.core n s
    cases h : step s with
    | next s' =>
      have h' : Sys2Proof.core.step s = .next s' := h
      rw [h'] at hrun
      exact hrun.trans ((ih s').trans (steps_succ_next h).symm)
    | fault f =>
      have h' : Sys2Proof.core.step s = .fault f := h
      rw [h'] at hrun
      exact hrun.trans (steps_succ_fault h).symm
    | refused r => exact absurd h (step_not_refused s r)

end Sys2Proof.Machine
end

