-- ==== Sys2Proof/Laws/Run.lean ====
section
/-! SUPPORT. The run loop and the halt test one step at a time, so that an induction over the bound
never unfolds them. -/

namespace Sys2Proof.Machine

variable {s s' : State} {n : Nat}

/-- A run of a halted state ends at once (R225). -/
theorem run_of_halted (h : s.halted = true) : run n s = .halted s := by
  cases n <;> simp [run, h]

/-- A run that may take no cycle (R229). -/
theorem run_zero_of_not_halted (h : s.halted = false) : run 0 s = .noHalt s := by
  simp [run, h]

/-- A run goes on behind a step that answers a next state. -/
theorem run_succ_of_next (h : s.halted = false) (hs : step s = .next s') : run (n + 1) s = run n s' := by
  simp [run, h, hs]

/-- A run ends at a step that faults, with the state before it. -/
theorem run_succ_of_fault {f : Fault} (h : s.halted = false) (hs : step s = .fault f) : run (n + 1) s = .faulted s f := by
  simp [run, h, hs]

/-- No state stands before the first. -/
theorem noHaltBefore_zero (s : State) : s.noHaltBefore 0 := fun _ _ h => absurd h (Nat.not_lt_zero _)

/-- The first of several states, where a step answers a next state, and then the rest. -/
theorem noHaltBefore_succ (hs : step s = .next s') :
    s.noHaltBefore (n + 1) ↔ kindOf s.config.highBits s.wbend.instr ≠ .HALT ∧ s'.noHaltBefore n := by
  constructor
  · intro h
    refine ⟨h 0 s (Nat.succ_pos n) rfl, fun j u hj hu => h (j + 1) u (Nat.succ_lt_succ hj) ?_⟩
    rw [steps_succ_next hs]; exact hu
  · rintro ⟨h0, h⟩ j u hj hu
    cases j with
    | zero => cases hu; exact h0
    | succ j => rw [steps_succ_next hs] at hu; exact h j u (Nat.lt_of_succ_lt_succ hj) hu

/-- The first state alone. -/
theorem noHaltBefore_one (s : State) : s.noHaltBefore 1 ↔ kindOf s.config.highBits s.wbend.instr ≠ .HALT := by
  constructor
  · intro h; exact h 0 s Nat.one_pos rfl
  · intro h j u hj hu
    obtain rfl : j = 0 := by omega
    cases hu; exact h

end Sys2Proof.Machine
end

