-- ==== Sys2Proof/Tests/Slice0.lean ====
section
/-! SUPPORT. Tests of the model and a witness for every statement that has hypotheses. Expected values
are from 95_test_vectors or worked out by hand from the rules; each name says what is checked. -/

namespace Sys2Proof.Machine.Tests

/-! ## Helpers -/

/-- Memories of 16 and 8 words, the spec's defaults otherwise. -/
def small : Config := { Config.default with imemWords := 16, dmemWords := 8 }

/-- Registers r0 to r7. -/
def regs : Regs := #v[0, 1, 2, 3, 4, 1, 0xFFFFFFFF, 7]

/-- A launched state of the small machine with NOOPs in instruction memory. -/
def idle (data : List Word) : State :=
  State.launched small regs (Memory.ofWords 0 0 (List.replicate 8 noopWord)) (Memory.ofWords 0 0 data)

/-- The idle state with these words in ID/EX, EX/MEM, MEM/WB and the given results in the last two. -/
def flight (idex exmem memwb : Word) (alu data : Word) : State :=
  { idle [10, 11, 12, 13, 14, 15, 16, 17] with
    idex := ⟨idex, 5, 2, 3, sext16 (field16 idex)⟩, exmem := ⟨exmem, 3, true, alu, 99⟩, memwb := ⟨memwb, data⟩ }

/-- The state answered, where one is. -/
def nextOf (o : Host.Outcome State Fault Refusal) : Option State :=
  match o with
  | .next t => some t
  | .fault _ => none
  | .refused _ => none

/-- The state after issuing an instruction from the idle state and `n` further steps. -/
def after (n : Nat) (data : List Word) (i : Instr) : Option State :=
  (nextOf (exec i (idle data))).bind fun t => nextOf (steps n t)

/-! ## WellFormed refuses what no word decodes to -/

theorem test_ill_formed_high_bits_in_add : (Instr.add 1 0 0 0).wellFormed .unrecognised = false := by decide
theorem test_ill_formed_high_bits_in_opcode_5 : (Instr.unrecOp5 64 0 0 0).wellFormed .unrecognised = false := by decide
theorem test_ill_formed_unrecHigh_without_high_bits : (Instr.unrecHigh 0 1 0 0 0).wellFormed .unrecognised = false := by
  decide
theorem test_ill_formed_unrecHigh_when_ignored : (Instr.unrecHigh 1 1 0 0 0).wellFormed .ignore = false := by decide
theorem test_well_formed_add_high_bits_ignored : (Instr.add 1 0 0 0).wellFormed .ignore = true := by decide

/-! ## Decoding, the words written out as hi op A B f16 (R71, R75) -/

theorem test_decode_add : decode .unrecognised 0b0000000_000_101_010_0000000000000111#32 = .add 0 5 2 7 := by decide
theorem test_decode_nor : decode .unrecognised 0b0000000_001_011_110_1111111111111111#32 = .nor 0 3 6 0xFFFF := by decide
theorem test_decode_lw : decode .unrecognised 0b0000000_010_111_001_1000000000000000#32 = .lw 0 7 1 0x8000 := by decide
theorem test_decode_sw : decode .unrecognised 0b0000000_011_100_000_0000000000000011#32 = .sw 0 4 0 3 := by decide
theorem test_decode_beq : decode .unrecognised 0b0000000_100_001_010_1111111111111110#32 = .beq 0 1 2 0xFFFE := by decide
theorem test_decode_opcode_5 : decode .unrecognised 0b0000000_101_001_000_0000000000000001#32 = .unrecOp5 0 1 0 1 := by
  decide
theorem test_decode_halt : decode .unrecognised 0b0000000_110_000_001_0000000000000010#32 = .halt 0 0 1 2 := by decide
theorem test_decode_noop : decode .unrecognised 0b0000000_111_010_011_0000000000000100#32 = .noop 0 2 3 4 := by decide
theorem test_decode_high_bits : decode .unrecognised 0b1000000_010_001_011_0000000000000101#32 = .unrecHigh 64 2 1 3 5 := by
  decide
theorem test_decode_high_bits_ignored : decode .ignore 0b1000000_010_001_011_0000000000000101#32 = .lw 64 1 3 5 := by decide
theorem test_encode_lw : encode (.lw 0 0 1 0) = 0x00810000#32 := by decide
theorem test_encode_unrecHigh_keeps_the_opcode : encode (.unrecHigh 1 7 0 0 0) = 0x03C00000#32 := by decide
theorem test_noop_and_halt_words : noopWord = 29360128#32 ∧ haltWord = 25165824#32 := by decide
theorem test_decodeTableWord : decodeTableWord 32 0x010A0003 = some (.beq 0 1 2 3) := by decide

/-! ## One small test or two per instruction -/

theorem test_add_wraps : (after 4 [] (.add 0 6 2 3)).map (fun u => u.reg.read 3) = some 1 := by decide
theorem test_add_writes_r0 : (after 4 [] (.add 0 1 2 0)).map (fun u => u.reg.read 0) = some 3 := by decide
theorem test_nor : (after 4 [] (.nor 0 1 2 3)).map (fun u => u.reg.read 3) = some 0xFFFFFFFC := by decide
theorem test_lw_reads_base_plus_offset : (after 4 [0, 0, 0, 77] (.lw 0 4 7 0xFFFF)).map (fun u => u.reg.read 7) = some 77 := by
  decide
theorem test_lw_base_is_the_destination : (after 4 [5, 6, 8] (.lw 0 2 2 0)).map (fun u => u.reg.read 2) = some 8 := by decide
theorem test_sw_stores_field_b : (after 4 [] (.sw 0 1 7 2)).map (fun u => (u.memRead 3, u.memRead 2)) = some (7, 0) := by
  decide
theorem test_beq_taken : (after 3 [] (.beq 0 1 5 0xFFFF)).map (fun u => u.pc) = some 0 := by decide
theorem test_beq_not_taken : (after 3 [] (.beq 0 1 2 5)).map (fun u => u.pc) = some 4 := by decide
theorem test_halt_stops : (after 4 [] (.halt 0 0 0 0)).map (fun u => (u.halted, u.cycles)) = some (true, 5) := by decide
theorem test_noop_changes_no_register : (after 4 [] (.noop 0 1 2 3)).map (fun u => u.reg) = some regs := by decide
theorem test_opcode_5_changes_no_register : (after 4 [] (.unrecOp5 0 1 2 3)).map (fun u => u.reg) = some regs := by decide
theorem test_high_bits_change_no_register : (after 4 [] (.unrecHigh 1 0 1 2 3)).map (fun u => u.reg) = some regs := by decide

/-! ## Witnesses: states and operands that meet the hypotheses of each statement

Words used: ADD r0,r1,r2 is 0x00010002, LW r0,r1,0 is 0x00810000, SW r0,r3,9 is 0x00C30009, BEQ r0,r0,-4 is
0x0100FFFC, HALT is 0x01800000, NOOP is 0x01C00000 (95_test_vectors section 2). -/

theorem witness_DecodeInvertsEncode :
    (Instr.lw 0 7 7 0xFFFF).wellFormed .unrecognised = true ∧ (Instr.add 127 0 7 8).wellFormed .ignore = true ∧
      (Instr.unrecHigh 1 7 0 0 0).wellFormed .unrecognised = true := by decide

theorem witness_KindFollowsTheOpcodeMap :
    (HighBitsPolicy.unrecognised = .unrecognised ∧ fieldHi 0x02000000 ≠ 0) ∧
      (HighBitsPolicy.ignore = .ignore ∨ fieldHi 0xFFFFFFFF = 0) ∧ fieldOp 0xFFFFFFFF = 7 ∧
      (HighBitsPolicy.unrecognised = .ignore ∨ fieldHi 0x01FFFFFF = 0) ∧ fieldOp 0x00010002 = 0 ∧
      fieldOp 0x01400000 = 5 ∧ fieldOp 0x01800000 = 6 := by decide

theorem witness_WritersAreAddNorAndLw :
    destOf small 0x00010007 = some 7 ∧ destOf small 0x00010008 = some 8 ∧ destOf small 0x00870000 = some 7 ∧
      destOf small 0x01800000 = none ∧ destOf { small with arithDest := .low3 } 0x00010008 = some 0 := by decide

theorem witness_LaunchFixesTheState :
    launch LaunchParams.default [noopWord, haltWord] =
      .ok (State.launched Config.default (Vector.replicate 8 0) [(0, noopWord), (1, haltWord)] [(0, noopWord), (1, haltWord)]) := by
  rfl

theorem witness_launch_with_an_override :
    (launch { LaunchParams.default with dmemInit := some [7, 0] } [haltWord]).toOption.map (fun s => s.dmem)
      = some [(0, 7)] := by decide

/-- Both fit exactly, each limit fails alone, and both fail together (the program's is reported, log 25). -/
theorem witness_LaunchRefusesWhatDoesNotFit :
    let p (n m : Nat) : LaunchParams := { LaunchParams.default with config := { small with imemWords := n, dmemWords := m } }
    (launch (p 2 2) [1, 2]).toOption.isSome = true ∧ launch (p 1 2) [1, 2] = .error .programTooLong ∧
      launch (p 2 1) [1, 2] = .error .dataImageTooLong ∧ launch (p 1 1) [1, 2] = .error .programTooLong :=
  ⟨by decide, rfl, rfl, rfl⟩

theorem witness_LinesAreHexadecimalWords :
    (∃ ch ∈ ['0', 'G'], hexDigit ch = none) ∧
      (['f', 'F', 'F', 'F', 'F', 'F', 'F', 'F'].map hexDigit = [15, 15, 15, 15, 15, 15, 15, 15].map some) ∧
      Nat.ofDigits 16 [15, 15, 15, 15, 15, 15, 15, 15].reverse < 2 ^ 32 ∧
      (['1', '0', '0', '0', '0', '0', '0', '0', '0'].map hexDigit = [1, 0, 0, 0, 0, 0, 0, 0, 0].map some) ∧
      ¬ Nat.ofDigits 16 [1, 0, 0, 0, 0, 0, 0, 0, 0].reverse < 2 ^ 32 :=
  ⟨⟨'G', by simp, by decide⟩, by decide, by norm_num [Nat.ofDigits], by decide, by norm_num [Nat.ofDigits]⟩

/-- The characters beside the three ranges of digits are none. -/
theorem test_hexDigit_edges :
    ['/', ':', '@', 'G', '`', 'g'].map hexDigit = List.replicate 6 none ∧
      ['0', '9', 'A', 'F', 'a', 'f'].map hexDigit = [some 0, some 9, some 10, some 15, some 10, some 15] := by decide

/-- Two lines that load, and one between them that does not. -/
theorem witness_ProgramTextLoads :
    List.Forall₂ (fun line w => parseLine line = .ok w) [['0', '1', '8', '0', '0', '0', '0', '0'], ['f']] [haltWord, 15] ∧
      (∀ line ∈ [['f']], ∃ w, parseLine line = .ok w) ∧ parseLine ['x'] = .error .notHexadecimal := by
  refine ⟨.cons rfl (.cons rfl .nil), ?_, rfl⟩
  intro line h
  rw [List.mem_singleton.mp h]
  exact ⟨15, rfl⟩

/-- One field to each side of a table row of 10_state R36: a LW shows readRegA and no readRegB. -/
theorem test_observation_of_a_load :
    (flight 0x00930001 0x00930001 0x00930001 7 8).observe.idex = ⟨0x00930001, none, some 2, none, some 1⟩ ∧
      (flight 0x00930001 0x00930001 0x00930001 7 8).observe.exmem = ⟨0x00930001, none, none, some 7, none⟩ ∧
      (flight 0x00930001 0x00930001 0x00930001 7 8).observe.memwb = ⟨0x00930001, some 8⟩ := by decide

theorem witness_ArithmeticDestinationIndex :
    small.arithDest = .field16Fault ∧ { small with arithDest := .low3 }.arithDest = .low3 ∧
      arithDest small 0xFFFF = 65535 ∧ arithDest { small with arithDest := .low3 } 0xFFFF = 7 := by decide

theorem witness_StepRunsTheDecodedInstruction :
    State.reset.halted = false ∧ (0 ≤ State.reset.pc ∧ State.reset.pc < (State.reset.config.imemWords : Int)) ∧
      decode State.reset.config.highBits (State.reset.ifetch State.reset.pc) = .add 0 0 0 0 := by decide

/-- The last word of instruction memory. -/
theorem witness_StepRunsTheDecodedInstruction_last :
    let s := { idle [] with pc := 15 }
    s.halted = false ∧ (0 ≤ s.pc ∧ s.pc < (s.config.imemWords : Int)) ∧
      decode s.config.highBits (s.ifetch s.pc) = .add 0 0 0 0 := by decide

theorem witness_PlacedWordRuns :
    State.reset.halted = false ∧ (0 ≤ State.reset.pc ∧ State.reset.pc < (State.reset.config.imemWords : Int)) ∧
      Memory.wf State.reset.config.imemFill State.reset.config.imemWords State.reset.imem = true := by decide

theorem test_placed_word_is_fetched :
    (nextOf (step (State.reset.withFetchWord 32 0x01800000))).map (fun t => t.ifid) = some ⟨haltWord, 1⟩ := by decide

/-- The word in MEM/WB writes r7 and the LW in EX/MEM accesses index 0 (SW: index 7, the last). -/
theorem witness_EveryInstructionIssues :
    let s := flight noopWord 0x00810000 0x00010007 0 5
    let s' := flight noopWord 0x00C30009 0x00010002 7 5
    s.writebackFault = [] ∧ s.memoryFault = [] ∧ s.taken = false ∧ s.stall = false ∧
      s'.writebackFault = [] ∧ s'.memoryFault = [] ∧ s'.taken = false ∧ s'.stall = false := by decide

theorem witness_EveryInstructionIssues_hypotheses :
    let s := flight noopWord 0x00C30009 0x00010007 7 5
    (∀ r, writesTo s.config s.memwb.instr r → r < 8) ∧
      (0 ≤ signed s.exmem.aluResult ∧ signed s.exmem.aluResult < (s.config.dmemWords : Int)) ∧
      ¬ s.branchTaken ∧ ¬ s.loadUseHazard := by
  refine ⟨fun r h => ?_, by decide, fun h => absurd h.1 (by decide), fun h => absurd h.1 (by decide)⟩
  rcases h with ⟨-, h⟩ | ⟨h, -⟩
  · exact Nat.lt_of_le_of_lt (Nat.le_of_eq h) (by decide)
  · exact absurd h (by decide)

/-- A cycle in which r2 is written and word 7 is stored: the other registers and words are framed. -/
theorem witness_CycleFrame :
    let s := flight noopWord 0x00C30009 0x00010002 7 5
    (nextOf (exec (.halt 0 0 0 0) s)).map (fun t => (t.reg.read 2, t.reg.read 1, t.memRead 7, t.memRead 6))
      = some (5, 1, 99, 16) := by decide

theorem witness_EveryCycleCounts :
    State.reset.halted = false ∧ (nextOf (step State.reset)).map (fun t => t.cycles) = some 1 := by decide

/-- All three checks fail at once (R206): the reasons stand oldest first. -/
theorem witness_FaultsAreExactlyTheFailedChecks :
    step { flight noopWord 0x00C30009 0x00010008 8 5 with pc := 16 }
      = .fault (.raised (.destOutOfRange 8) [.dataOutOfRange 8, .fetchOutOfRange 16]) := rfl

theorem witness_each_check_alone :
    step (flight noopWord noopWord 0x00010008 8 5) = .fault (.raised (.destOutOfRange 8) []) ∧
      step (flight noopWord 0x00810000 noopWord 0xFFFFFFFF 5) = .fault (.raised (.dataOutOfRange (-1)) []) ∧
      step { idle [] with pc := -1 } = .fault (.raised (.fetchOutOfRange (-1)) []) := ⟨rfl, rfl, rfl⟩

theorem witness_HaltedStateIsFinal :
    let s := { idle [] with wbend := ⟨haltWord, 0⟩ }
    kindOf s.config.highBits s.wbend.instr = .HALT ∧ (nextOf (steps 3 s)).map (fun t => t.cycles) = some 0 := by decide

theorem witness_RunStopsAtTheFirstRetiredHalt :
    let s := State.launched small regs [(0, haltWord), (1, noopWord), (2, noopWord), (3, noopWord), (4, noopWord)] []
    (∃ P, run 5 s = .halted P) ∧ (∃ P, run 4 s = .noHalt P) ∧
      (∃ P f, run 2 { idle [] with pc := 15 } = .faulted P f) ∧ (∃ P, run 1 { idle [] with pc := 15 } = .noHalt P) :=
  ⟨⟨_, rfl⟩, ⟨_, rfl⟩, ⟨_, _, rfl⟩, ⟨_, rfl⟩⟩

/-- The hypotheses of ReportFollowsTheRun are answers of the run above; here the report of each. -/
theorem test_reports :
    let s := State.launched small regs [(0, haltWord), (1, noopWord), (2, noopWord), (3, noopWord), (4, noopWord)] []
    (∃ o, (run 5 s).report = .final o ∧ o.cycles = 5) ∧ (∃ o, (run 4 s).report = .noHalt o ∧ o.cycles = 4) ∧
      (∃ o, (run 2 { idle [] with pc := 15 }).report = .fault [.fetchOutOfRange 16] o ∧ o.cycles = 1) :=
  ⟨⟨_, rfl, by decide⟩, ⟨_, rfl, by decide⟩, ⟨_, rfl, by decide⟩⟩

/-- A HALT with other bits than the canonical word's, and a launch. -/
theorem witness_HaltTestReadsWbEnd :
    kindOf small.highBits { idle [] with wbend := ⟨0x01BFFFFF, 0⟩ }.wbend.instr = .HALT ∧
      (∃ s, launch LaunchParams.default [haltWord] = .ok s) := ⟨by decide, ⟨_, rfl⟩⟩

theorem witness_TraceShowsEveryState :
    let s := State.launched small regs [(0, haltWord), (1, noopWord), (2, noopWord), (3, noopWord), (4, noopWord)] []
    (∃ P, run 5 s = .halted P) ∧ (trace 5 s).map (fun o => o.cycles) = [0, 1, 2, 3, 4, 5] := ⟨⟨_, rfl⟩, by decide⟩

theorem test_display_of_words :
    renderWord .unrecognised 0x00010002 = "ADD r0,r1,r2" ∧ renderWord .unrecognised 0x0100FFFC = "BEQ r0,r0,-4" ∧
      renderWord .unrecognised 0x01400000 = "0x01400000" := ⟨rfl, rfl, rfl⟩

/-! The hazard states: a BEQ with its flag in EX/MEM, and a LW of r1 in ID/EX with ADD r1,r2,r3 in IF/ID. -/

/-- A load-use hazard with the given word in EX/MEM. -/
def hazard (exmem : Word) : State :=
  { flight 0x00810000 exmem noopWord 0 0 with ifid := ⟨0x000A0003, 7⟩ }

theorem witness_hazard_alone :
    (hazard noopWord).halted = false ∧ (hazard noopWord).branchTaken = ((Kind.NOOP = .BEQ) ∧ true = true) ∧
      kindOf .unrecognised (hazard noopWord).idex.instr = .LW ∧
      fieldA (hazard noopWord).ifid.instr = fieldB (hazard noopWord).idex.instr ∧
      small.stallCheckNonreaders = true := ⟨by decide, rfl, by decide, by decide, by decide⟩

/-- The hypotheses of StallHoldsFetchAndDecode and StallLastsOneCycle, and the second clause of NextPcPriority. -/
theorem witness_StallHoldsFetchAndDecode :
    (hazard noopWord).halted = false ∧ (∃ t, step (hazard noopWord) = .next t) ∧
      ¬ (hazard noopWord).branchTaken ∧ (hazard noopWord).loadUseHazard := by
  refine ⟨by decide, ⟨_, rfl⟩, ?_, ?_⟩
  · rintro ⟨h, -⟩; exact absurd h (by decide)
  · exact ⟨by decide, Or.inl (by decide), Or.inl (by decide)⟩

/-- The hypotheses of SquashWinsOverStall, both hazards in one cycle, and of SquashedInstructionsChangeNothing;
the first clause of NextPcPriority. -/
theorem witness_SquashWinsOverStall :
    (hazard 0x0100FFFC).halted = false ∧ (hazard 0x0100FFFC).branchTaken ∧ (hazard 0x0100FFFC).loadUseHazard ∧
      (∃ t u, step (hazard 0x0100FFFC) = .next t ∧ steps 4 t = .next u) := by
  refine ⟨by decide, ⟨by decide, by decide⟩, ⟨by decide, Or.inl (by decide), Or.inl (by decide)⟩, ⟨_, _, rfl, rfl⟩⟩

/-- The hypotheses of NormalAdvance, and the third clause of NextPcPriority: no branch in EX/MEM. -/
theorem witness_NormalAdvance :
    (idle []).halted = false ∧ (∃ t, step (idle []) = .next t) ∧ ¬ (idle []).branchTaken ∧ ¬ (idle []).loadUseHazard := by
  refine ⟨by decide, ⟨_, rfl⟩, ?_, ?_⟩
  · rintro ⟨h, -⟩; exact absurd h (by decide)
  · rintro ⟨h, -⟩; exact absurd h (by decide)

theorem witness_TakenIsABeqWithItsFlag :
    (hazard 0x0100FFFC).taken = true ∧
      { hazard 0x0100FFFC with exmem := ⟨0x0100FFFC, 3, false, 0, 0⟩ }.taken = false := by decide

/-- A LW behind a LW is compared in field A alone; a NOOP is compared only under STALL_CHECK_NONREADERS. -/
theorem witness_StallIsTheLoadUseHazard :
    let s (w : Word) (b : Bool) : State :=
      { flight 0x00810000 noopWord noopWord 0 0 with
        config := { small with stallCheckNonreaders := b }, ifid := ⟨w, 7⟩ }
    (s 0x00880000 true).stall = true ∧ (s 0x00810000 true).stall = false ∧ (s 0x00C10000 false).stall = true ∧
      (s 0x01C80000 true).stall = true ∧ (s 0x01C80000 false).stall = false := by decide

/-! Forwarding: ID/EX holds ADD r2,r3,r4, its register values 2 and 3. -/

/-- EX/MEM, MEM/WB and WB/END with results 20, 30 and 40. -/
def producers (exmem memwb wbend : Word) : State :=
  { flight 0x00130004 exmem memwb 20 30 with wbend := ⟨wbend, 40⟩ }

/-- Each clause of NearestProducerWins: ADD r0,r0,r2 nearer and nearer, a LW of r2 in EX/MEM, r0 to r7 at the ends. -/
theorem witness_NearestProducerWins :
    (producers 0x00000002 0x00000002 0x00000002).operands = (20, 3) ∧
      (producers noopWord 0x00000002 0x00000002).operands = (30, 3) ∧
      (producers noopWord noopWord 0x00000003).operands = (2, 40) ∧
      (producers 0x00820000 noopWord noopWord).operands = (2, 3) ∧
      (producers 0x00000000 0x00000007 noopWord).operands = (2, 3) := by decide

theorem witness_NearestProducerWins_no_forwarding :
    { producers 0x00000002 0x00000002 noopWord with idex := ⟨0x01D30000, 5, 2, 3, 1⟩ }.operands = (2, 3) := by decide

/-- Each kind of ExecuteComputes, operands 2 and 3, the offset each word's own: the ALU results worked out by hand. -/
theorem witness_ExecuteComputes :
    let x (w : Word) : Option ExMem := (nextOf (step (flight w noopWord noopWord 0 0))).map (fun t => t.exmem)
    x 0x00130004 = some ⟨0x00130004, 9, false, 5, 3⟩ ∧ x 0x00530004 = some ⟨0x00530004, 9, false, 0xFFFFFFFC, 3⟩ ∧
      x 0x00930001 = some ⟨0x00930001, 6, false, 3, 3⟩ ∧ x 0x00D3FFFF = some ⟨0x00D3FFFF, 4, false, 1, 3⟩ ∧
      x 0x01130001 = some ⟨0x01130001, 6, false, 0, 3⟩ ∧ x 0x01400000 = some ⟨0x01400000, 5, false, 0, 3⟩ ∧
      x haltWord = some ⟨haltWord, 5, false, 0, 3⟩ ∧ x noopWord = some ⟨noopWord, 5, false, 0, 3⟩ := by decide

/-- A state that meets the invariant with ADD r2,r3,r4 in ID/EX and the producers of r2 ahead of it. -/
theorem witness_OperandsAreTheSequentialValues :
    (producers 0x00000002 0x00000003 noopWord).Inv ∧
      readsA (kindOf .unrecognised 0x00130004) = true ∧ readsB (kindOf .unrecognised 0x00130004) = true := by
  refine ⟨⟨by decide, by decide, fun h => absurd h (by decide), fun _ => by decide, fun _ => by decide⟩, by decide, by decide⟩

/-- Each clause of MemoryStageAccesses: LW at index 0, SW at index 7 (the last), and a NOOP. -/
theorem witness_MemoryStageAccesses :
    let t (w : Word) (alu : Word) : Option (MemWb × Memory) :=
      (nextOf (step (flight noopWord w noopWord alu 0))).map (fun t => (t.memwb, t.dmem))
    let before := (flight noopWord noopWord noopWord 0 0).dmem
    Memory.wf small.dmemFill small.dmemWords before = true ∧
      t 0x00810000 0 = some (⟨0x00810000, 10⟩, before) ∧
      t 0x00C30009 7 = some (⟨0x00C30009, 7⟩, Memory.ofWords 0 0 [10, 11, 12, 13, 14, 15, 16, 99]) ∧
      t noopWord 8 = some (⟨noopWord, 8⟩, before) := by decide

/-- Each clause of WritebackCommits and of RetirePassesOn: an ADD of r7, a LW of r0, and a SW. -/
theorem witness_WritebackCommits :
    let t (w : Word) : Option (Regs × WbEnd) := (nextOf (step (flight noopWord noopWord w 0 50))).map (fun t => (t.reg, t.wbend))
    t 0x00010007 = some (#v[0, 1, 2, 3, 4, 1, 0xFFFFFFFF, 50], ⟨0x00010007, 50⟩) ∧
      t 0x00880000 = some (#v[50, 1, 2, 3, 4, 1, 0xFFFFFFFF, 7], ⟨0x00880000, 50⟩) ∧
      t 0x00C30009 = some (regs, ⟨0x00C30009, 50⟩) := by decide

theorem witness_HaltRetiresWithTheNextWordInMemory :
    let s := flight noopWord 0x00C30009 haltWord 7 0
    s.halted = false ∧ kindOf s.config.highBits s.memwb.instr = .HALT ∧ kindOf s.config.highBits s.exmem.instr = .SW ∧
      (nextOf (step s)).map (fun t => (t.halted, t.memRead 7)) = some (true, 99) := by decide

theorem witness_LaunchMeetsTheInvariant : launch LaunchParams.default [haltWord] =
    .ok (State.launched Config.default (Vector.replicate 8 0) [(0, haltWord)] [(0, haltWord)]) := rfl

theorem witness_StepKeepsTheInvariant :
    (producers 0x00000002 0x00000003 noopWord).Inv ∧ ∃ t, step (producers 0x00000002 0x00000003 noopWord) = .next t :=
  ⟨witness_OperandsAreTheSequentialValues.1, ⟨_, rfl⟩⟩

/-- Two states that differ, look the same, and step on. -/
theorem witness_HiddenFieldsAreNeverObserved :
    let s := flight noopWord noopWord noopWord 0 0
    let t := flight noopWord noopWord noopWord 1 2
    s ≠ t ∧ s.sameObserved t ∧ (∃ s', step s = .next s') := by
  refine ⟨by decide, ⟨rfl, rfl, by decide⟩, ⟨_, rfl⟩⟩

/-- Two states that differ, look the same, and fault. -/
theorem witness_HiddenFieldsAreNeverObserved_fault :
    let s := { flight noopWord noopWord noopWord 0 0 with pc := 16 }
    let t := { flight noopWord noopWord noopWord 1 2 with pc := 16 }
    s ≠ t ∧ s.sameObserved t ∧ (∃ f, step s = .fault f) := by
  refine ⟨by decide, ⟨rfl, rfl, by decide⟩, ⟨_, rfl⟩⟩

/-! The passages: the idle state's latches are NOOPs and the words behind `pc` are too. -/

/-- Idle, with four NOOPs behind `pc`: what every passage statement assumes. -/
theorem witness_idle (data : List Word) : (idle data).Idle ∧ (idle data).noopsBehind 4 := by
  refine ⟨⟨rfl, rfl, rfl, rfl, rfl⟩, Int.le_refl 0, Int.lt_of_sub_neg (Int.negSucc_lt_zero 11), ?_⟩
  intro k h1 h4
  rcases (by omega : k = 1 ∨ k = 2 ∨ k = 3 ∨ k = 4) with rfl | rfl | rfl | rfl <;> rfl

/-- The destination at its last register, r7. -/
theorem witness_AddCompletes :
    (Instr.add 0 1 2 7).wellFormed (idle []).config.highBits = true ∧ (idle []).Idle ∧ (idle []).noopsBehind 4 ∧
      arithDest (idle []).config 7 < 8 := ⟨by decide, (witness_idle []).1, (witness_idle []).2, by decide⟩

theorem witness_NorCompletes :
    (Instr.nor 0 1 2 0).wellFormed (idle []).config.highBits = true ∧ (idle []).Idle ∧ (idle []).noopsBehind 4 ∧
      arithDest (idle []).config 0 < 8 := ⟨by decide, (witness_idle []).1, (witness_idle []).2, by decide⟩

/-- The first index that is no register. -/
theorem witness_ArithmeticTrapsOnAMissingDestination :
    (Instr.add 0 1 2 8).wellFormed (idle []).config.highBits = true ∧ (Instr.nor 0 1 2 8).wellFormed small.highBits = true ∧
      (idle []).Idle ∧ (idle []).noopsBehind 4 ∧ 8 ≤ arithDest (idle []).config 8 :=
  ⟨by decide, by decide, (witness_idle []).1, (witness_idle []).2, by decide⟩

/-- The last word of data memory. -/
theorem witness_LwCompletes :
    (Instr.lw 0 0 0 7).wellFormed (idle []).config.highBits = true ∧ (idle []).Idle ∧ (idle []).noopsBehind 4 ∧
      ((idle []).reg.read 0 + BitVec.ofInt 32 (7 : BitVec 16).toInt).toInt = 7 ∧ (idle []).config.dmemWords = 8 :=
  ⟨by decide, (witness_idle []).1, (witness_idle []).2, by decide, rfl⟩

/-- The first word of data memory, reached with a negative offset. -/
theorem witness_SwCompletes :
    (Instr.sw 0 1 3 0xFFFF).wellFormed (idle []).config.highBits = true ∧ (idle []).Idle ∧ (idle []).noopsBehind 4 ∧
      Memory.wf (idle []).config.dmemFill (idle []).config.dmemWords (idle []).dmem = true ∧
      ((idle []).reg.read 1 + BitVec.ofInt 32 (0xFFFF : BitVec 16).toInt).toInt = 0 ∧ (idle []).config.dmemWords = 8 :=
  ⟨by decide, (witness_idle []).1, (witness_idle []).2, by decide, by decide, rfl⟩

/-- The first index on either side of data memory. -/
theorem witness_LoadAndStoreTrapOutOfRange :
    (Instr.lw 0 0 1 0xFFFF).wellFormed (idle []).config.highBits = true ∧ (Instr.sw 0 0 1 8).wellFormed small.highBits = true ∧
      (idle []).Idle ∧ (idle []).noopsBehind 4 ∧
      ((idle []).reg.read 0 + BitVec.ofInt 32 (0xFFFF : BitVec 16).toInt).toInt = -1 ∧
      ((idle []).reg.read 0 + BitVec.ofInt 32 (8 : BitVec 16).toInt).toInt = 8 ∧ (idle []).config.dmemWords = 8 :=
  ⟨by decide, by decide, (witness_idle []).1, (witness_idle []).2, by decide, by decide, rfl⟩

/-- Both traps, reached. -/
theorem test_traps :
    (∃ t u, exec (.add 0 1 2 8) (idle []) = .next t ∧ steps 3 t = .next u ∧
      step u = .fault (.raised (.destOutOfRange 8) [])) ∧
    (∃ t u, exec (.sw 0 0 3 8) (idle []) = .next t ∧ steps 2 t = .next u ∧
      step u = .fault (.raised (.dataOutOfRange 8) [])) :=
  ⟨⟨_, _, rfl, rfl, rfl⟩, ⟨_, _, rfl, rfl, rfl⟩⟩

/-- Equal registers, and unequal ones. -/
theorem witness_BeqCompletes :
    (Instr.beq 0 1 5 0x8000).wellFormed (idle []).config.highBits = true ∧ (idle []).Idle ∧ (idle []).noopsBehind 4 ∧
      (idle []).reg.read 1 = (idle []).reg.read 5 ∧ (idle []).reg.read 1 ≠ (idle []).reg.read 2 :=
  ⟨by decide, (witness_idle []).1, (witness_idle []).2, by decide, by decide⟩

theorem witness_HaltCompletes :
    (Instr.halt 0 7 7 0xFFFF).wellFormed (idle []).config.highBits = true ∧ (idle []).Idle ∧ (idle []).noopsBehind 4 :=
  ⟨by decide, (witness_idle []).1, (witness_idle []).2⟩

theorem witness_NoopAndUnrecognisedWordsComplete :
    (Instr.noop 0 7 7 0xFFFF).wellFormed (idle []).config.highBits = true ∧
      (Instr.unrecOp5 0 0 0 0).wellFormed (idle []).config.highBits = true ∧
      (Instr.unrecHigh 1 0 0 0 0).wellFormed (idle []).config.highBits = true ∧ (idle []).Idle ∧ (idle []).noopsBehind 4 :=
  ⟨by decide, by decide, by decide, (witness_idle []).1, (witness_idle []).2⟩

/-! The reference, and the run against it. -/

/-- The reference's step on one word at address 0. -/
def refStep (w : Word) : RefOutcome := seqStep small [(0, w)] ⟨regs, 0, [(7, 70)]⟩

/-- Every clause of ReferenceStepFollowsTheRules, the destinations and indices at their bounds. -/
theorem witness_ReferenceStepFollowsTheRules :
    seqStep small [] ⟨regs, -1, []⟩ = .fault (.fetchOutOfRange (-1)) ∧
      seqStep small [] ⟨regs, 16, []⟩ = .fault (.fetchOutOfRange 16) ∧
      refStep haltWord = .stop ⟨regs, 0, [(7, 70)]⟩ ∧
      refStep 0x000A0007 = .next ⟨regs.write 7 3, 1, [(7, 70)]⟩ ∧ refStep 0x000A0008 = .fault (.destOutOfRange 8) ∧
      refStep 0x004A0007 = .next ⟨regs.write 7 0xFFFFFFFC, 1, [(7, 70)]⟩ ∧
      refStep 0x00810007 = .next ⟨regs.write 1 70, 1, [(7, 70)]⟩ ∧ refStep 0x00810008 = .fault (.dataOutOfRange 8) ∧
      refStep 0x00C30000 = .next ⟨regs, 1, [(0, 3), (7, 70)]⟩ ∧ refStep 0x00C3FFFF = .fault (.dataOutOfRange (-1)) ∧
      refStep 0x010D0004 = .next ⟨regs, 5, [(7, 70)]⟩ ∧ refStep 0x010A0004 = .next ⟨regs, 1, [(7, 70)]⟩ ∧
      refStep noopWord = .next ⟨regs, 1, [(7, 70)]⟩ ∧ refStep 0x01400000 = .next ⟨regs, 1, [(7, 70)]⟩ := by decide

/-- `LW r0,r3,0`; `ADD r3,r1,r2`, which the load stalls; `BEQ r0,r0,1`, taken over a NOOP; HALT; and NOOPs. -/
def stallBranchHalt : List Word :=
  [0x00830000, 0x00190002, 0x01000001, noopWord, haltWord, noopWord, noopWord, noopWord, noopWord]

/-- The clauses of ReferenceRunCounts: a step that stalls, one that branches, a stop, and a fault. -/
theorem witness_ReferenceRunCounts :
    let imem := Memory.ofWords 0 0 stallBranchHalt
    let word (a : Nat) : Word := Memory.read 0 imem a
    (∃ t, seqStep small imem ⟨regs, 0, []⟩ = .next t ∧ t.pc = 1) ∧ loadUsePair small (word 0) (word 1) ∧
      (∃ t, seqStep small imem ⟨regs, 2, []⟩ = .next t) ∧ ¬ loadUsePair small (word 2) (word 3) ∧
      kindOf small.highBits (word 2) = .BEQ ∧ regs.read (fieldA (word 2)) = regs.read (fieldB (word 2)) ∧
      seqStep small imem ⟨regs, 4, []⟩ = .stop ⟨regs, 4, []⟩ ∧
      seqStep small imem ⟨regs, 16, []⟩ = .fault (.fetchOutOfRange 16) :=
  ⟨⟨_, rfl, rfl⟩, ⟨by decide, Or.inl (by decide), Or.inl rfl⟩, ⟨_, rfl⟩, fun h => absurd h.1 (by decide),
    by decide, rfl, rfl, rfl⟩

/-- `SW r0,r1,3` behind the HALT, NOOPs behind it. -/
def haltThenStore : List Word := [haltWord, 0x00C10003, noopWord, noopWord, noopWord]

/-- The hypotheses of PipelineAgreesWithTheReference, with a SW behind the HALT. -/
theorem witness_PipelineAgreesWithTheReference :
    let p : LaunchParams := ⟨small, regs, some []⟩
    (∃ s P, launch p haltThenStore = .ok s ∧ run 5 s = .halted P ∧ P.cycles = 5 ∧ P.memRead 3 = 1) :=
  ⟨_, _, rfl, rfl, by decide, by decide⟩

/-- The hypotheses of CycleCountFormula, with N = 3, S = 1 and T = 1: 3 + 1 + 3 + 5 cycles. -/
theorem witness_CycleCountFormula :
    let p : LaunchParams := ⟨small, regs, some [7]⟩
    (∃ s P r, launch p stallBranchHalt = .ok s ∧ run 12 s = .halted P ∧ P.cycles = 12 ∧ P.reg.read 2 = 8 ∧
      seqRun s.config s.imem 4 (RefRun.start ⟨s.reg, 0, s.dmem⟩) = .stopped r ∧
      (r.executed, r.stalls, r.taken) = (3, 1, 1)) :=
  ⟨_, _, _, rfl, rfl, by decide, by decide, rfl, by decide⟩

end Sys2Proof.Machine.Tests
end

namespace Sys2Proof.Machine

/-! ## The kind table, column by column: which words write a register, which values a stage reads -/

section paths
variable {c : Config} {w : Word}

/-- The destination index of ADD and NOR, as the statements name it (R79). -/
theorem arithDest_field16 : arithDest c (field16 w) = namedDestination c w := by
  have hf : zext16 (field16 w) = w.toNat % 2 ^ 16 := by simp [zext16, field16]
  unfold arithDest namedDestination
  cases c.arithDest with
  | field16Fault => exact hf
  | low3 => simp only [hf]; omega

/-- `writesTo` is the destination column of the kind table (R82). -/
theorem writesTo_iff_destOf {r : Nat} : writesTo c w r ↔ destOf c w = some r := by
  unfold writesTo
  cases hk : kindOf c.highBits w with
  | ADD => simp [destOf_arith c w (.inl hk), arithDest_field16, eq_comm]
  | NOR => simp [destOf_arith c w (.inr hk), arithDest_field16, eq_comm]
  | LW => simp [destOf_lw c w hk, eq_comm]
  | SW | BEQ | HALT | NOOP | UNREC => simp [destOf_other c w (by simp [hk])]

/-- A word with a destination is of a kind whose `writeData` is meaningful (R36, R82). -/
theorem writes_of_destOf {d : Nat} (h : destOf c w = some d) : writes (kindOf c.highBits w) = true := by
  cases hk : kindOf c.highBits w with
  | ADD | NOR | LW => rfl
  | SW | BEQ | HALT | NOOP | UNREC => simp [destOf_other c w (by simp [hk])] at h

/-- A word with a data access is of a kind whose `aluResult` is meaningful (R36, R113). -/
theorem readsAlu_of_access (h : (wordPath c w).access ≠ .none) : readsAlu (kindOf c.highBits w) = true := by
  cases ha : (wordPath c w).access with
  | none => exact absurd ha h
  | read => rw [(access_read_iff c w).mp ha]; rfl
  | write => rw [(access_write_iff c w).mp ha]; rfl

/-- A forwarding source in EX/MEM is of a kind whose `aluResult` is meaningful (R36, R108). -/
theorem readsAlu_of_forwardsAlu (h : (wordPath c w).forwardsAlu = true) : readsAlu (kindOf c.highBits w) = true := by
  rcases (forwardsAlu_iff c w).mp h with hk | hk <;> rw [hk] <;> rfl

/-- A word that writes a register has a meaningful `aluResult` before (R36). -/
theorem readsAlu_of_writes {k : Kind} (h : writes k = true) : readsAlu k = true := by
  cases k with
  | ADD | NOR | LW => rfl
  | SW | BEQ | HALT | NOOP | UNREC => exact absurd h Bool.false_ne_true

/-- The ALU's function depends only on the operands and the offset that are meaningful (R36, R111). -/
theorem alu_congr {a a' b b' : Word} {off off' : Int} (ha : readsA (kindOf c.highBits w) = true → a = a')
    (hb : readsB (kindOf c.highBits w) = true → b = b')
    (hoff : readsOffset (kindOf c.highBits w) = true → off = off') :
    (wordPath c w).alu a b off = (wordPath c w).alu a' b' off' := by
  cases hk : kindOf c.highBits w <;> rw [hk] at ha hb hoff
  case ADD => simp only [alu_add c w hk, ha rfl, hb rfl]
  case NOR => simp only [alu_nor c w hk, ha rfl, hb rfl]
  case LW => simp only [alu_address c w (.inl hk), ha rfl, hoff rfl]
  case SW => simp only [alu_address c w (.inr hk), ha rfl, hoff rfl]
  all_goals simp only [alu_other c w (by simp [hk])]

end paths

/-! ## One cycle: its frame, and the step as one cycle -/

section frame
variable {s t : State}

/-- A write leaves the words at other indices as they were, the memory canonical or not (R64). -/
theorem mem_read_write_other (fill : Word) (m : Memory) {a x : Nat} (v : Word) (h : x ≠ a) :
    Memory.read fill (Memory.write fill m a v) x = Memory.read fill m x := by
  induction m with
  | nil => by_cases hv : v = fill <;> simp [Memory.write, Memory.read, hv, h]
  | cons e rest ih =>
    obtain ⟨b, u⟩ := e
    simp only [Memory.write]
    split
    · split
      · rfl
      · simp [Memory.read, h]
    · split
      · next hab => subst hab; split <;> simp [Memory.read, h]
      · simp only [Memory.read, ih]

/-- Writeback changes no register but the destination of the word in MEM/WB (R22, R116). -/
theorem nextReg_read_other {r : Reg} (h : ¬ writesTo s.config s.memwb.instr r.val) :
    s.nextReg.read r = s.reg.read r := by
  rw [writesTo_iff_destOf] at h
  cases hd : destOf s.config s.memwb.instr with
  | none => rw [nextReg_none hd]
  | some d => rw [nextReg_some hd, read_write_other _ _ _ _ fun hr => h (by rw [hd, hr])]

/-- The store of a SW in EX/MEM (R113). -/
theorem nextDmem_of_write (h : s.access = .write) : s.nextDmem = s.memWrite s.ea s.exmem.storeData := by
  simp [State.nextDmem, h]

/-- Memory changes no word but the one a SW in EX/MEM stores to (R39, R113). -/
theorem nextDmem_read_other {a : Nat}
    (h : ¬ (kindOf s.config.highBits s.exmem.instr = .SW ∧ (signed s.exmem.aluResult).toNat = a)) :
    Memory.read s.config.dmemFill s.nextDmem a = Memory.read s.config.dmemFill s.dmem a := by
  by_cases hw : s.access = .write
  · rw [nextDmem_of_write hw]
    exact mem_read_write_other _ _ _ fun ha => h ⟨(access_write_iff _ _).mp hw, ha.symm⟩
  · rw [nextDmem_of_not_write hw]

/-- The `taken` signal, in the spec's own terms (R112). -/
theorem taken_iff : s.taken = true ↔ s.branchTaken := by
  simp [State.taken, State.branchTaken, branches_iff]

/-- A step of a state that is not final: the cycle on the word at `pc`, with the reasons of all three
checks, the oldest instruction's first (R125, R126, R206). -/
theorem step_eq_settle (h : s.halted = false) :
    step s = settle (s.stageFaults ++ s.fetchFault) (s.advance (encode (decode s.config.highBits (s.ifetch s.pc)))) := by
  unfold step
  rw [h, if_neg Bool.false_ne_true]
  split
  · next hr => simp [exec_eq_cycle, cycle, State.fetchFault, hr]
  · next hr => cases hf : s.stageFaults <;> simp [cycleWithoutFetch, State.fetchFault, hr, hf, settle]

end frame

/-! ## What an observation shows (R36, R234) -/

section observation
variable {α : Type}

theorem shown_eq_ite {b : Bool} {P : Prop} [Decidable P] (h : b = true ↔ P) (v : α) :
    shown b v = if P then some v else none := by
  simp [shown, h]

/-- Two fields look the same exactly when they are equal where they are meaningful. -/
@[simp] theorem shown_eq_shown {b : Bool} {v v' : α} : shown b v = shown b v' ↔ (b = true → v = v') := by
  cases b <;> simp [shown]

/-- The rows of the table of R36, each as the list of its kinds. -/
theorem readsA_iff (k : Kind) : readsA k = true ↔ k ∈ ([.ADD, .NOR, .LW, .SW, .BEQ] : List Kind) := by
  cases k <;> decide

theorem readsB_iff (k : Kind) : readsB k = true ↔ k ∈ ([.ADD, .NOR, .SW, .BEQ] : List Kind) := by
  cases k <;> decide

theorem readsOffset_iff (k : Kind) : readsOffset k = true ↔ k ∈ ([.LW, .SW, .BEQ] : List Kind) := by
  cases k <;> decide

theorem readsAlu_iff (k : Kind) : readsAlu k = true ↔ k ∈ ([.ADD, .NOR, .LW, .SW] : List Kind) := by
  cases k <;> decide

theorem writes_iff (k : Kind) : writes k = true ↔ k ∈ ([.ADD, .NOR, .LW] : List Kind) := by
  cases k <;> decide

theorem beq_iff_mem_singleton (k k' : Kind) : (k == k') = true ↔ k ∈ [k'] := by
  simp

end observation

/-! ## States that look alike

`State.Alike` is `State.sameObserved` taken apart: one relation per latch, whose field for a value that
is not always meaningful asks for equality only where the table of R36 calls it meaningful
(`sameObserved_iff_alike`). -/

/-- Two IF/ID latches that look alike. -/
structure IfId.Alike (p : HighBitsPolicy) (l l' : IfId) : Prop where
  instr : l.instr = l'.instr
  pcPlus1 : kindOf p l.instr = .BEQ → l.pcPlus1 = l'.pcPlus1

/-- Two ID/EX latches that look alike. -/
structure IdEx.Alike (p : HighBitsPolicy) (l l' : IdEx) : Prop where
  instr : l.instr = l'.instr
  pcPlus1 : kindOf p l.instr = .BEQ → l.pcPlus1 = l'.pcPlus1
  readRegA : readsA (kindOf p l.instr) = true → l.readRegA = l'.readRegA
  readRegB : readsB (kindOf p l.instr) = true → l.readRegB = l'.readRegB
  offset : readsOffset (kindOf p l.instr) = true → l.offset = l'.offset

/-- Two EX/MEM latches that look alike. -/
structure ExMem.Alike (p : HighBitsPolicy) (l l' : ExMem) : Prop where
  instr : l.instr = l'.instr
  branchTarget : kindOf p l.instr = .BEQ → l.branchTarget = l'.branchTarget
  eq : kindOf p l.instr = .BEQ → l.eq = l'.eq
  aluResult : readsAlu (kindOf p l.instr) = true → l.aluResult = l'.aluResult
  storeData : kindOf p l.instr = .SW → l.storeData = l'.storeData

/-- Two MEM/WB or WB/END latches that look alike, given by their words and their `writeData`. -/
structure WriteAlike (p : HighBitsPolicy) (w w' v v' : Word) : Prop where
  instr : w = w'
  writeData : writes (kindOf p w) = true → v = v'

/-- Two states with the same program and parameters that look alike. -/
structure State.Alike (s t : State) : Prop where
  config : s.config = t.config
  imem : s.imem = t.imem
  cycles : s.cycles = t.cycles
  pc : s.pc = t.pc
  dmem : s.dmem = t.dmem
  reg : s.reg = t.reg
  ifid : s.ifid.Alike s.config.highBits t.ifid
  idex : s.idex.Alike s.config.highBits t.idex
  exmem : s.exmem.Alike s.config.highBits t.exmem
  memwb : WriteAlike s.config.highBits s.memwb.instr t.memwb.instr s.memwb.writeData t.memwb.writeData
  wbend : WriteAlike s.config.highBits s.wbend.instr t.wbend.instr s.wbend.writeData t.wbend.writeData

section views

/-- The view of MEM/WB and WB/END, taken apart. -/
theorem writeView_eq_iff {p : HighBitsPolicy} {w w' v v' : Word} :
    WriteView.mk w (shown (writes (kindOf p w)) v) = WriteView.mk w' (shown (writes (kindOf p w')) v') ↔
      WriteAlike p w w' v v' := by
  rw [WriteView.mk.injEq]
  constructor
  · rintro ⟨hi, hw⟩
    rw [← hi, shown_eq_shown] at hw
    exact ⟨hi, hw⟩
  · rintro ⟨hi, hw⟩
    simpa [← hi] using hw

variable {s t : State} (hc : s.config = t.config)
include hc

theorem observe_ifid_eq_iff : s.observe.ifid = t.observe.ifid ↔ s.ifid.Alike s.config.highBits t.ifid := by
  simp only [State.observe, IfIdView.mk.injEq, ← hc]
  constructor
  · rintro ⟨hi, hp⟩
    simp only [← hi, shown_eq_shown, beq_iff_eq] at hp
    exact ⟨hi, hp⟩
  · rintro ⟨hi, hp⟩
    simpa [← hi] using hp

theorem observe_idex_eq_iff : s.observe.idex = t.observe.idex ↔ s.idex.Alike s.config.highBits t.idex := by
  simp only [State.observe, IdExView.mk.injEq, ← hc]
  constructor
  · rintro ⟨hi, hp, ha, hb, ho⟩
    simp only [← hi, shown_eq_shown, beq_iff_eq] at hp ha hb ho
    exact ⟨hi, hp, ha, hb, ho⟩
  · rintro ⟨hi, hp, ha, hb, ho⟩
    simpa [← hi] using ⟨hp, ha, hb, ho⟩

theorem observe_exmem_eq_iff : s.observe.exmem = t.observe.exmem ↔ s.exmem.Alike s.config.highBits t.exmem := by
  simp only [State.observe, ExMemView.mk.injEq, ← hc]
  constructor
  · rintro ⟨hi, hb, he, ha, hs⟩
    simp only [← hi, shown_eq_shown, beq_iff_eq] at hb he ha hs
    exact ⟨hi, hb, he, ha, hs⟩
  · rintro ⟨hi, hb, he, ha, hs⟩
    simpa [← hi] using ⟨hb, he, ha, hs⟩

theorem observe_memwb_eq_iff : s.observe.memwb = t.observe.memwb ↔
    WriteAlike s.config.highBits s.memwb.instr t.memwb.instr s.memwb.writeData t.memwb.writeData := by
  rw [← writeView_eq_iff]
  simp only [State.observe, hc]

theorem observe_wbend_eq_iff : s.observe.wbend = t.observe.wbend ↔
    WriteAlike s.config.highBits s.wbend.instr t.wbend.instr s.wbend.writeData t.wbend.writeData := by
  rw [← writeView_eq_iff]
  simp only [State.observe, hc]

end views

/-- Looking alike is agreeing on the observation, the program and the parameters. -/
theorem sameObserved_iff_alike {s t : State} : s.sameObserved t ↔ s.Alike t := by
  constructor
  · rintro ⟨hc, hi, ho⟩
    exact {
      config := hc
      imem := hi
      cycles := congrArg Observation.cycles ho
      pc := congrArg Observation.pc ho
      dmem := congrArg Observation.dmem ho
      reg := congrArg Observation.reg ho
      ifid := (observe_ifid_eq_iff hc).mp (congrArg Observation.ifid ho)
      idex := (observe_idex_eq_iff hc).mp (congrArg Observation.idex ho)
      exmem := (observe_exmem_eq_iff hc).mp (congrArg Observation.exmem ho)
      memwb := (observe_memwb_eq_iff hc).mp (congrArg Observation.memwb ho)
      wbend := (observe_wbend_eq_iff hc).mp (congrArg Observation.wbend ho) }
  · intro h
    refine ⟨h.config, h.imem, ?_⟩
    have hifid := (observe_ifid_eq_iff h.config).mpr h.ifid
    have hidex := (observe_idex_eq_iff h.config).mpr h.idex
    have hexmem := (observe_exmem_eq_iff h.config).mpr h.exmem
    have hmemwb := (observe_memwb_eq_iff h.config).mpr h.memwb
    have hwbend := (observe_wbend_eq_iff h.config).mpr h.wbend
    rw [Observation.mk.injEq]
    exact ⟨h.cycles, h.pc, h.dmem, h.reg, hifid, hidex, hexmem, hmemwb, hwbend⟩

/-! ## Every stage maps states that look alike to the same signal, or to latches that look alike -/

/-- Two operand pairs that agree where the operands of a word of kind `k` are meaningful (R36). -/
structure OperandsAlike (k : Kind) (ops ops' : Word × Word) : Prop where
  fst : readsA k = true → ops.1 = ops'.1
  snd : readsB k = true → ops.2 = ops'.2

/-- Forwarding from a source whose value is the same where it has a destination keeps operands alike (R109). -/
theorem forwardFrom_alike {k : Kind} (a b : Reg) {ops ops' : Word × Word} {dest : Option Nat} {v v' : Word}
    (hv : ∀ d, dest = some d → v = v') (h : OperandsAlike k ops ops') :
    OperandsAlike k (forwardFrom a b ops dest v) (forwardFrom a b ops' dest v') := by
  cases dest with
  | none => exact h
  | some d =>
    obtain rfl := hv d rfl
    simp only [forwardFrom_some]
    exact ⟨fun hk => by rw [h.fst hk], fun hk => by rw [h.snd hk]⟩

/-- Bubbles look alike, whatever their other fields hold (R114, R120, R121). -/
theorem IfId.alike_bubble (p : HighBitsPolicy) (l l' : IfId) :
    IfId.Alike p { l with instr := noopWord } { l' with instr := noopWord } := by
  constructor <;> simp

theorem IdEx.alike_bubble (p : HighBitsPolicy) (l l' : IdEx) :
    IdEx.Alike p { l with instr := noopWord } { l' with instr := noopWord } := by
  constructor <;> simp [readsA, readsB, readsOffset]

theorem ExMem.alike_bubble (p : HighBitsPolicy) (l l' : ExMem) :
    ExMem.Alike p { l with instr := noopWord } { l' with instr := noopWord } := by
  constructor <;> simp [readsAlu]

namespace State.Alike
variable {s t : State} (h : s.Alike t)
include h

theorem halted_eq : s.halted = t.halted := by
  simp only [State.halted, h.config, h.wbend.instr]

theorem ifetch_eq (a : Int) : s.ifetch a = t.ifetch a := by
  simp only [State.ifetch, h.config, h.imem]

theorem fetchFault_eq : s.fetchFault = t.fetchFault := by
  simp only [State.fetchFault, h.config, h.pc]

theorem stall_eq : s.stall = t.stall := by
  simp only [State.stall, h.config, h.idex.instr, h.ifid.instr]

theorem access_eq : s.access = t.access := by
  simp only [State.access, h.config, h.exmem.instr]

/-- The flag of a BEQ in EX/MEM is meaningful, and no other word branches (R112). -/
theorem taken_eq : s.taken = t.taken := by
  unfold State.taken
  rw [← h.config, ← h.exmem.instr]
  cases hb : (wordPath s.config s.exmem.instr).branches with
  | false => rfl
  | true => rw [h.exmem.eq ((branches_iff _ _).mp hb)]

/-- The index of an access that happens is meaningful (R113). -/
theorem ea_eq (ha : s.access ≠ .none) : s.ea = t.ea := by
  unfold State.ea
  rw [h.exmem.aluResult (readsAlu_of_access ha)]

theorem writebackFault_eq : s.writebackFault = t.writebackFault := by
  simp only [State.writebackFault, h.config, h.memwb.instr]

theorem memoryFault_eq : s.memoryFault = t.memoryFault := by
  have hdata (hne : s.access ≠ .none) : s.dataFault s.ea = t.dataFault t.ea := by
    simp only [State.dataFault, h.config, h.ea_eq hne]
  unfold State.memoryFault
  rw [← h.access_eq]
  cases ha : s.access with
  | none => rfl
  | read | write => exact hdata (by simp [ha])

theorem stageFaults_eq : s.stageFaults = t.stageFaults := by
  simp only [State.stageFaults, h.writebackFault_eq, h.memoryFault_eq]

/-- The value of a word with a destination in MEM/WB, as Writeback and the forwarding multiplexer read it. -/
theorem memwb_writeData_eq (d : Nat) (hd : destOf s.config s.memwb.instr = some d) :
    s.memwb.writeData = t.memwb.writeData :=
  h.memwb.writeData (writes_of_destOf hd)

theorem nextReg_eq : s.nextReg = t.nextReg := by
  have hdest : destOf t.config t.memwb.instr = destOf s.config s.memwb.instr := by rw [h.config, h.memwb.instr]
  cases hd : destOf s.config s.memwb.instr with
  | none => rw [nextReg_none hd, nextReg_none (hdest.trans hd), h.reg]
  | some d => rw [nextReg_some hd, nextReg_some (hdest.trans hd), h.reg, h.memwb_writeData_eq d hd]

theorem nextDmem_eq : s.nextDmem = t.nextDmem := by
  by_cases hw : s.access = .write
  · have hsw := (access_write_iff _ _).mp hw
    rw [nextDmem_of_write hw, nextDmem_of_write (h.access_eq ▸ hw), h.ea_eq (by simp [hw]), h.exmem.storeData hsw]
    simp only [State.memWrite, h.config, h.dmem]
  · rw [nextDmem_of_not_write hw, nextDmem_of_not_write (h.access_eq ▸ hw), h.dmem]

/-- The target of a taken branch is meaningful (R122). -/
theorem nextPc_eq : s.nextPc = t.nextPc := by
  unfold State.nextPc
  rw [← h.taken_eq, ← h.stall_eq, ← h.pc]
  cases ht : s.taken with
  | false => rfl
  | true => exact h.exmem.branchTarget (taken_iff.mp ht).1

/-- Decode reads the register file and the word, and passes on the address behind a BEQ (R104). -/
theorem decodeStage_alike : s.decodeStage.Alike s.config.highBits t.decodeStage where
  instr := h.ifid.instr
  pcPlus1 := h.ifid.pcPlus1
  readRegA _ := by simp only [decodeStage_readRegA, h.reg, h.ifid.instr]
  readRegB _ := by simp only [decodeStage_readRegB, h.reg, h.ifid.instr]
  offset _ := by simp only [decodeStage_offset, h.ifid.instr]

/-- Each forwarding source is read only where its value is meaningful (R107 to R109). -/
theorem forwarded_alike : OperandsAlike (kindOf s.config.highBits s.idex.instr) s.forwarded t.forwarded := by
  have hread : OperandsAlike (kindOf s.config.highBits s.idex.instr)
      (s.idex.readRegA, s.idex.readRegB) (t.idex.readRegA, t.idex.readRegB) := ⟨h.idex.readRegA, h.idex.readRegB⟩
  unfold State.forwarded
  rw [← h.config, ← h.idex.instr, ← h.wbend.instr, ← h.memwb.instr, ← h.exmem.instr]
  have hwbend := forwardFrom_alike (fieldA s.idex.instr) (fieldB s.idex.instr)
    (fun _ hd => h.wbend.writeData (writes_of_destOf hd)) hread
  have hmemwb := forwardFrom_alike (fieldA s.idex.instr) (fieldB s.idex.instr) h.memwb_writeData_eq hwbend
  dsimp only
  split
  · next hf => exact forwardFrom_alike _ _ (fun _ _ => h.exmem.aluResult (readsAlu_of_forwardsAlu hf)) hmemwb
  · exact hmemwb

theorem operands_alike : OperandsAlike (kindOf s.config.highBits s.idex.instr) s.operands t.operands := by
  unfold State.operands
  rw [← h.config, ← h.idex.instr]
  split
  · exact h.forwarded_alike
  · exact ⟨h.idex.readRegA, h.idex.readRegB⟩

/-- What Execute computes and R36 calls meaningful comes from what is meaningful in ID/EX (R110, R111). -/
theorem executeStage_alike : s.executeStage.Alike s.config.highBits t.executeStage where
  instr := h.idex.instr
  branchTarget hk := by
    have hoff := h.idex.offset (congrArg readsOffset hk)
    simp only [State.executeStage, h.idex.pcPlus1 hk, hoff]
  eq hk := by
    simp only [State.executeStage, h.operands_alike.fst (congrArg readsA hk), h.operands_alike.snd (congrArg readsB hk)]
  aluResult _ := by
    unfold State.executeStage
    rw [← h.config, ← h.idex.instr]
    exact alu_congr h.operands_alike.fst h.operands_alike.snd h.idex.offset
  storeData hk := h.operands_alike.snd (congrArg readsB hk)

/-- Memory passes on the loaded word of a LW, or the result of an ADD or NOR (R114). -/
theorem memoryStage_alike : WriteAlike s.config.highBits s.memoryStage.instr t.memoryStage.instr
    s.memoryStage.writeData t.memoryStage.writeData where
  instr := h.exmem.instr
  writeData hk := by
    have hread (ha : s.access = .read) : s.memRead s.ea = t.memRead t.ea := by
      simp only [State.memRead, h.config, h.dmem, h.ea_eq (ha ▸ by decide)]
    have halu : s.exmem.aluResult = t.exmem.aluResult := h.exmem.aluResult (readsAlu_of_writes hk)
    unfold State.memoryStage
    rw [← h.access_eq]
    cases ha : s.access with
    | read => exact hread ha
    | none | write => exact halu

theorem nextIfid_alike (w : Word) : (s.nextIfid w).Alike s.config.highBits (t.nextIfid w) := by
  unfold State.nextIfid
  rw [← h.taken_eq, ← h.stall_eq, ← h.pc]
  cases s.taken with
  | true => exact IfId.alike_bubble ..
  | false =>
    cases s.stall with
    | true => exact h.ifid
    | false => exact ⟨rfl, fun _ => rfl⟩

theorem nextIdex_alike : s.nextIdex.Alike s.config.highBits t.nextIdex := by
  unfold State.nextIdex
  rw [← h.taken_eq, ← h.stall_eq]
  split
  · exact IdEx.alike_bubble ..
  · exact h.decodeStage_alike

theorem nextExmem_alike : s.nextExmem.Alike s.config.highBits t.nextExmem := by
  unfold State.nextExmem
  rw [← h.taken_eq]
  split
  · exact ExMem.alike_bubble ..
  · exact h.executeStage_alike

/-- One cycle on the same fetched word (R126). -/
theorem advance_alike (w : Word) : (s.advance w).Alike (t.advance w) where
  config := h.config
  imem := h.imem
  cycles := congrArg (· + 1) h.cycles
  pc := h.nextPc_eq
  dmem := h.nextDmem_eq
  reg := h.nextReg_eq
  ifid := h.nextIfid_alike w
  idex := h.nextIdex_alike
  exmem := h.nextExmem_alike
  memwb := h.memoryStage_alike
  wbend := h.memwb

/-- One step: the same reasons, or next states that look alike. -/
theorem step_alike : (∀ s', step s = .next s' → ∃ t', step t = .next t' ∧ s'.Alike t') ∧
    (∀ f, step s = .fault f → step t = .fault f) := by
  cases hs : s.halted with
  | true =>
    rw [step_halted hs, step_halted (h.halted_eq ▸ hs)]
    refine ⟨?_, nofun⟩
    rintro _ ⟨⟩
    exact ⟨t, rfl, h⟩
  | false =>
    have hfetch : decode t.config.highBits (t.ifetch t.pc) = decode s.config.highBits (s.ifetch s.pc) := by
      rw [h.config, h.pc, h.ifetch_eq]
    rw [step_eq_settle hs, step_eq_settle (h.halted_eq ▸ hs), hfetch, ← h.stageFaults_eq, ← h.fetchFault_eq]
    constructor
    · intro s' hnext
      obtain ⟨hnone, rfl⟩ := settle_next.mp hnext
      exact ⟨_, settle_next.mpr ⟨hnone, rfl⟩, h.advance_alike _⟩
    · exact fun f hf => settle_fault.mpr (settle_fault.mp hf)

end State.Alike

/-! ## The statements -/

/-- Settles O38: both observations are taken apart into `State.Alike`, which every stage keeps. -/
theorem hiddenFieldsAreNeverObserved : Obligations.HiddenFieldsAreNeverObserved := by
  intro s t h
  simp only [sameObserved_iff_alike] at h ⊢
  exact h.step_alike

/-- Settles O13: the next state is `advance`, whose registers and data memory have the frames of
Writeback and of Memory. -/
theorem cycleFrame : Obligations.CycleFrame := by
  intro i s t h
  obtain ⟨-, rfl⟩ := exec_next.mp h
  exact ⟨rfl, rfl, fun _ => nextReg_read_other, fun _ => nextDmem_read_other⟩

/-- Settles O14: a step of a state that is not final is one `advance`. -/
theorem everyCycleCounts : Obligations.EveryCycleCounts := by
  refine ⟨rfl, fun s t hs h => ?_⟩
  rcases step_next h with ⟨hh, -⟩ | ⟨-, -, -, rfl⟩
  · exact absurd (hs.symm.trans hh) Bool.false_ne_true
  · exact ⟨rfl, rfl, rfl⟩

/-- Settles O35: both memories are empty, and every latch holds the NOOP word. -/
theorem resetMeetsTheInvariant : Obligations.ResetMeetsTheInvariant where
  imemCanonical := rfl
  dmemCanonical := rfl
  loadUseGap h := by simp [State.reset] at h
  offsetOfWord h := by simp [State.reset] at h
  operandsFresh h := by simp [State.reset] at h

/-- Settles O54: each field is shown for the kinds in its row of the table of R36. -/
theorem observationShowsMeaningfulFields : Obligations.ObservationShowsMeaningfulFields := by
  intro s
  simp only [State.observe, shown_eq_ite (readsA_iff _), shown_eq_ite (readsB_iff _), shown_eq_ite (readsOffset_iff _),
    shown_eq_ite (readsAlu_iff _), shown_eq_ite (writes_iff _), shown_eq_ite (beq_iff_mem_singleton _ _), and_self]

end Sys2Proof.Machine

namespace Sys2Proof.Machine

/-! ## Words moving down the pipeline, and the stages they cannot act in (20_memory R67, R68) -/

section passage
variable {s t u : State}

/-- A step of a state that is not final is one cycle, and no stage behind Fetch has faulted. -/
theorem step_next_of_not_halted (hs : s.halted = false) (h : step s = .next t) :
    s.stageFaults = [] ∧ t = s.advance (encode (decode s.config.highBits (s.ifetch s.pc))) := by
  rcases step_next h with ⟨hh, -⟩ | ⟨-, -, hf, rfl⟩
  · exact absurd (hs.symm.trans hh) Bool.false_ne_true
  · exact ⟨hf, rfl⟩

/-- A final state stays as it is for any number of steps (R215, R227). -/
theorem steps_halted (h : s.halted = true) (n : Nat) : steps n s = .next s := by
  induction n with
  | zero => rfl
  | succ n ih => rw [steps_succ_next (step_halted h), ih]

/-- The word that enters Writeback `i` cycles from now if no bubble comes in between: MEM/WB, EX/MEM,
ID/EX, and from 3 on IF/ID. -/
def State.inFlight (s : State) : Nat → Word
  | 0 => s.memwb.instr
  | 1 => s.exmem.instr
  | 2 => s.idex.instr
  | _ => s.ifid.instr

/-- Over a cycle each word behind Fetch moves one stage on or is voided (R119 to R121). -/
theorem advance_inFlight (w : Word) {i : Nat} (hi : i < 3) :
    (s.advance w).inFlight i = s.inFlight (i + 1) ∨ (s.advance w).inFlight i = noopWord := by
  match i, hi with
  | 0, _ => exact .inl rfl
  | 1, _ =>
    show s.nextExmem.instr = _ ∨ s.nextExmem.instr = _
    cases ht : s.taken with
    | true => exact .inr (by rw [nextExmem_taken ht])
    | false => exact .inl (by rw [nextExmem_normal ht]; rfl)
  | 2, _ =>
    show s.nextIdex.instr = _ ∨ s.nextIdex.instr = _
    by_cases hb : s.taken = true ∨ s.stall = true
    · exact .inr (by rw [nextIdex_bubble hb])
    · obtain ⟨ht, hs⟩ := not_or.mp hb
      exact .inl (by rw [nextIdex_normal (by simpa using ht) (by simpa using hs)]; rfl)

/-- A part `f` of the state that a cycle leaves as it is whenever the word at `lo` is idle (`P`) stays as
it is for `k` steps, if the `k` words from `lo` on are idle and none of them is still to be fetched. -/
theorem steps_unchanged_of_inFlight {α : Type} {f : State → α} {P : Config → Word → Prop} {lo : Nat}
    (hnoop : ∀ c, P c noopWord) (hf : ∀ (s : State) (w : Word), P s.config (s.inFlight lo) → f (s.advance w) = f s)
    {k : Nat} (hk : lo + k ≤ 4) (hP : ∀ i, lo ≤ i → i < lo + k → P s.config (s.inFlight i))
    (h : steps k s = .next u) : f u = f s := by
  induction k generalizing s with
  | zero => cases h; rfl
  | succ k ih =>
    cases hs : s.halted with
    | true => rw [steps_halted hs] at h; cases h; rfl
    | false =>
      cases hstep : step s with
      | fault r => rw [steps_succ_fault hstep] at h; cases h
      | refused r => exact absurd hstep (step_not_refused s r)
      | next s' =>
        rw [steps_succ_next hstep] at h
        obtain ⟨-, rfl⟩ := step_next_of_not_halted hs hstep
        refine (ih (by omega) (fun i hlo hi => ?_) h).trans (hf s _ (hP lo le_rfl (by omega)))
        rcases advance_inFlight (s := s) (encode (decode s.config.highBits (s.ifetch s.pc))) (i := i) (by omega)
          with hw | hw
        · rw [hw]; exact hP (i + 1) (by omega) (by omega)
        · rw [hw]; exact hnoop _

/-- Registers stay as they are for `k` steps if the next `k` words to enter Writeback write none (R116). -/
theorem steps_reg_eq {k : Nat} (hk : k ≤ 4) (hdest : ∀ i < k, destOf s.config (s.inFlight i) = none)
    (h : steps k s = .next u) : u.reg = s.reg :=
  steps_unchanged_of_inFlight (f := State.reg) (P := fun c w => destOf c w = none) (lo := 0) destOf_noopWord
    (fun _ _ => nextReg_none) (by omega) (fun i _ hi => hdest i (by omega)) h

/-- Data memory stays as it is for `k` steps if the next `k` words to enter Memory store nothing (R113). -/
theorem steps_dmem_eq {k : Nat} (hk : k ≤ 3)
    (haccess : ∀ i < k, (wordPath s.config (s.inFlight (i + 1))).access ≠ .write)
    (h : steps k s = .next u) : u.dmem = s.dmem :=
  steps_unchanged_of_inFlight (f := State.dmem) (P := fun c w => (wordPath c w).access ≠ .write) (lo := 1)
    (fun c => by simp [noopPath]) (fun _ _ => nextDmem_of_not_write) (by omega)
    (fun i hlo hi => by obtain ⟨j, rfl⟩ := Nat.exists_eq_add_of_le' hlo; exact haccess j (by omega)) h

/-- A taken branch leaves the NOOP word in the three latches behind it (R121). -/
theorem advance_inFlight_of_taken (w : Word) (ht : s.taken = true) {i : Nat} (hi : 0 < i) :
    (s.advance w).inFlight i = noopWord := by
  match i, hi with
  | 1, _ => exact congrArg ExMem.instr (nextExmem_taken ht)
  | 2, _ => exact congrArg IdEx.instr (nextIdex_bubble (.inl ht))
  | _ + 3, _ => exact nextIfid_taken ht

end passage

/-- Settles O27: the branch in MEM/WB writes no register, and behind it stand three NOOP words. -/
theorem squashedInstructionsChangeNothing : Obligations.SquashedInstructionsChangeNothing := by
  intro s t u k hs hstep hbr hsteps
  obtain ⟨-, rfl⟩ := step_next_of_not_halted hs hstep
  have hnoop := fun i => advance_inFlight_of_taken (encode (decode s.config.highBits (s.ifetch s.pc)))
    (taken_iff.mpr hbr) (i := i)
  refine ⟨fun hk => steps_reg_eq hk (fun i _ => ?_) hsteps, fun hk => steps_dmem_eq hk (fun i _ => ?_) hsteps⟩
  · cases i with
    | zero => exact destOf_other s.config s.exmem.instr (by simp [hbr.1])
    | succ i => rw [hnoop _ i.succ_pos, destOf_noopWord]
  · rw [hnoop _ i.succ_pos, wordPath_noopWord]
    exact nofun

/-- Settles O34: the HALT moves from MEM/WB to WB/END, where it makes the state final; it writes no register,
and the cycle is a whole one for the word in EX/MEM. -/
theorem haltRetiresWithTheNextWordInMemory : Obligations.HaltRetiresWithTheNextWordInMemory := by
  intro s t hs hhalt hstep
  obtain ⟨-, rfl⟩ := step_next_of_not_halted hs hstep
  exact ⟨steps_halted ((halts_iff s.config s.memwb.instr).mpr hhalt),
    nextReg_none (destOf_other s.config s.memwb.instr (by simp [hhalt])), rfl,
    fun hsw => nextDmem_of_write ((access_write_iff s.config s.exmem.instr).mpr hsw)⟩

end Sys2Proof.Machine

namespace Sys2Proof

/-! ## The decoder and the encoder as inverses (30_encoding R73 to R81)

Every instruction is an UNREC_HIGH row or a dispatch on some opcode; on either form `encode` assembles the
word, and the laws of `assembleWord` give the fields back. -/

section inverses
variable {p : HighBitsPolicy} {hi : BitVec 7} {op : BitVec 3} {a b : Reg} {f : BitVec 16}

/-- The rows of the opcode table: UNREC_HIGH, or the row of one of the eight opcodes (R75, R76). -/
theorem eq_unrecHigh_or_decodeOp : ∀ i : Instr,
    (∃ hi op a b f, i = .unrecHigh hi op a b f) ∨ (∃ hi op a b f, i = decodeOp op hi a b f)
  | .add hi a b f => .inr ⟨hi, 0, a, b, f, rfl⟩
  | .nor hi a b f => .inr ⟨hi, 1, a, b, f, rfl⟩
  | .lw hi a b f => .inr ⟨hi, 2, a, b, f, rfl⟩
  | .sw hi a b f => .inr ⟨hi, 3, a, b, f, rfl⟩
  | .beq hi a b f => .inr ⟨hi, 4, a, b, f, rfl⟩
  | .unrecOp5 hi a b f => .inr ⟨hi, 5, a, b, f, rfl⟩
  | .halt hi a b f => .inr ⟨hi, 6, a, b, f, rfl⟩
  | .noop hi a b f => .inr ⟨hi, 7, a, b, f, rfl⟩
  | .unrecHigh hi op a b f => .inl ⟨hi, op, a, b, f, rfl⟩

theorem encode_unrecHigh : encode (.unrecHigh hi op a b f) = assembleWord hi op a b f := rfl

/-- The encoder's opcode number is the one that the decoder dispatches on (R75). -/
theorem encode_decodeOp : encode (decodeOp op hi a b f) = assembleWord hi op a b f := by
  rcases op_cases op with h | h | h | h | h | h | h | h <;> subst h <;> rfl

theorem wellFormed_unrecHigh :
    (Instr.unrecHigh hi op a b f).wellFormed p = true ↔ p = .unrecognised ∧ hi ≠ 0 := by
  simp [Instr.wellFormed]

/-- The other rows are well-formed exactly where the decoder dispatches on the opcode (R76). -/
theorem wellFormed_decodeOp :
    (decodeOp op hi a b f).wellFormed p = true ↔ p = .ignore ∨ hi = 0 := by
  rcases op_cases op with h | h | h | h | h | h | h | h <;> subst h <;>
    simp [decodeOp, Instr.wellFormed, Instr.hi]

/-- Decoding the word of a well-formed instruction gives the instruction back (R81). -/
theorem decode_encode {i : Instr} (h : i.wellFormed p = true) : decode p (encode i) = i := by
  rcases eq_unrecHigh_or_decodeOp i with ⟨hi, op, a, b, f, rfl⟩ | ⟨hi, op, a, b, f, rfl⟩
  · obtain ⟨rfl, hhi⟩ := wellFormed_unrecHigh.mp h
    rw [encode_unrecHigh, decode_of_high (by simpa using hhi)]
    simp
  · have hop := wellFormed_decodeOp.mp h
    rw [encode_decodeOp, decode_of_op (by simpa using hop)]
    simp

/-- A word is dispatched on its opcode, or it is UNREC_HIGH (R76). -/
theorem decode_cases (p : HighBitsPolicy) (w : Word) :
    (p = .ignore ∨ fieldHi w = 0) ∨ (p = .unrecognised ∧ fieldHi w ≠ 0) := by
  cases p with
  | ignore => exact .inl (.inl rfl)
  | unrecognised => exact (em (fieldHi w = 0)).imp .inr fun h => ⟨rfl, h⟩

/-- Every word decodes to a well-formed instruction (R73, R85). -/
theorem wellFormed_decode (p : HighBitsPolicy) (w : Word) : (decode p w).wellFormed p = true := by
  rcases decode_cases p w with h | ⟨rfl, h⟩
  · rw [decode_of_op h]
    exact wellFormed_decodeOp.mpr h
  · rw [decode_of_high h]
    exact wellFormed_unrecHigh.mpr ⟨rfl, h⟩

/-- The decoder drops no bit of the word (R81; log 31). -/
@[simp] theorem encode_decode (p : HighBitsPolicy) (w : Word) : encode (decode p w) = w := by
  rcases decode_cases p w with h | ⟨rfl, h⟩
  · rw [decode_of_op h, encode_decodeOp, assembleWord_fields]
  · rw [decode_of_high h, encode_unrecHigh, assembleWord_fields]

end inverses

/-! ## The kind of a word and the numbers of its fields (R71, R75) -/

section kindsAndFields
variable {w : Word}

/-- The kinds of opcodes 0 to 7, in this order (R75). -/
def opcodeKinds : Vector Kind 8 := #v[.ADD, .NOR, .LW, .SW, .BEQ, .UNREC, .HALT, .NOOP]

/-- The eight kinds differ. -/
theorem opcodeKinds_inj : ∀ op op' : BitVec 3, opcodeKinds[op.toFin] = opcodeKinds[op'.toFin] ↔ op = op' := by
  decide

theorem kind_decodeOp {op : BitVec 3} {hi : BitVec 7} {a b : Reg} {f : BitVec 16} :
    (decodeOp op hi a b f).kind = opcodeKinds[op.toFin] := by
  rcases op_cases op with h | h | h | h | h | h | h | h <;> subst h <;> rfl

/-- Of the words that are not UNREC_HIGH those with opcode `op` have its kind, and no others (R74 to R76). -/
theorem fieldOp_eq_iff_kindOf {p : HighBitsPolicy} (h : p = .ignore ∨ fieldHi w = 0) (op : BitVec 3) :
    fieldOp w = op ↔ kindOf p w = opcodeKinds[op.toFin] := by
  rw [kindOf, decode_of_op h, kind_decodeOp, opcodeKinds_inj]

/-- A word with a bit of 31:25 set is UNREC under `unrecognised` (R76). -/
theorem kindOf_of_high (h : fieldHi w ≠ 0) : kindOf .unrecognised w = .UNREC := by
  rw [kindOf, decode_of_high h, Instr.kind]

theorem fieldHi_toNat : (fieldHi w).toNat = w.toNat / 2 ^ 25 := by
  have hw := w.isLt
  rw [fieldHi, BitVec.extractLsb'_toNat, Nat.shiftRight_eq_div_pow]
  omega

theorem fieldOp_toNat : (fieldOp w).toNat = w.toNat / 2 ^ 22 % 8 := by
  rw [fieldOp, BitVec.extractLsb'_toNat, Nat.shiftRight_eq_div_pow]

theorem fieldA_val : (fieldA w).val = w.toNat / 2 ^ 19 % 8 := by
  rw [fieldA, BitVec.val_toFin, BitVec.extractLsb'_toNat, Nat.shiftRight_eq_div_pow]

theorem fieldB_val : (fieldB w).val = w.toNat / 2 ^ 16 % 8 := by
  rw [fieldB, BitVec.val_toFin, BitVec.extractLsb'_toNat, Nat.shiftRight_eq_div_pow]

theorem field16_toNat : (field16 w).toNat = w.toNat % 2 ^ 16 := by
  rw [field16, BitVec.extractLsb'_toNat, Nat.shiftRight_zero]

end kindsAndFields

/-! ## The statements on the encoding -/

/-- Settles O1: a well-formed instruction is the row that its own word dispatches to. -/
theorem decodeInvertsEncode : Obligations.DecodeInvertsEncode := fun _ _ => decode_encode

/-- Settles O2: either branch of the decoder keeps the five fields, and a word is the concatenation of them. -/
theorem encodeInvertsDecode : Obligations.EncodeInvertsDecode :=
  fun p w => ⟨wellFormed_decode p w, encode_decode p w⟩

/-- Settles O3: the decoder computes on each of the twelve words. -/
theorem writtenOutWordsDecode : Obligations.WrittenOutWordsDecode := by
  unfold Obligations.WrittenOutWordsDecode
  decide

/-- Settles O4: outside UNREC_HIGH a word's kind is the entry of `opcodeKinds` at its opcode. -/
theorem kindFollowsTheOpcodeMap : Obligations.KindFollowsTheOpcodeMap := by
  intro p w
  constructor
  · rintro ⟨rfl, hhi⟩
    exact kindOf_of_high hhi
  · intro h
    have key := fieldOp_eq_iff_kindOf h
    exact ⟨key 0, key 1, key 2, key 3, key 4, key 5, key 6, key 7⟩

/-- Settles O50: each field is a shift and a remainder, and `sext16` reads bit 15 of the last one. -/
theorem fieldsStandAtTheirBits : Obligations.FieldsStandAtTheirBits := by
  refine fun w => ⟨fieldHi_toNat, fieldOp_toNat, fieldA_val, fieldB_val, field16_toNat, ?_⟩
  rw [sext16, field16_toNat]

end Sys2Proof

namespace Sys2Proof.Machine

/-! ## The destination and the stall check of a word (R79, R82, R83) -/

/-- Settles O51: one equation of `arithDest` for each policy. -/
theorem arithmeticDestinationIndex : Obligations.ArithmeticDestinationIndex := by
  intro c f
  constructor
  · intro h
    rw [arithDest, h, zext16]
  · intro h
    rw [arithDest, h, zext16]

/-- Settles O5: the destination column of the kind table. -/
theorem writersAreAddNorAndLw : Obligations.WritersAreAddNorAndLw := fun _ _ _ => writesTo_iff_destOf.symm

/-- The stall columns of the kind table: which fields are compared with a load's destination, and for which
words (R83). -/
theorem stallChecks_iff (c : Config) (w : Word) (d : Reg) :
    stallChecks c w d = true ↔
      (fieldA w = d ∨ (kindOf c.highBits w ≠ .LW ∧ fieldB w = d)) ∧
        (c.stallCheckNonreaders = true ∨ kindOf c.highBits w ∈ ([.ADD, .NOR, .LW, .SW, .BEQ] : List Kind)) := by
  cases hk : kindOf c.highBits w with
  | LW => simp [stallChecks_lw c w hk]
  | ADD | NOR | SW | BEQ => simp [stallChecks_reader c w (by simp [hk])]
  | HALT | NOOP | UNREC => simp [stallChecks_nonreader c w (by simp [hk]), and_comm]

/-- The `stall` signal, in the spec's own terms (R105). -/
theorem stall_iff {s : State} : s.stall = true ↔ s.loadUseHazard := by
  simp only [State.stall, State.loadUseHazard, loadUsePair, Bool.and_eq_true, beq_iff_eq, stallChecks_iff]

/-- Settles O21: the word in IF/ID is stall-checked against field B of the LW in ID/EX. -/
theorem stallIsTheLoadUseHazard : Obligations.StallIsTheLoadUseHazard := fun _ => stall_iff

end Sys2Proof.Machine

namespace Sys2Proof.Machine

/-! ## A step that answers a next state, and the signals of its cycle (40_pipeline R119 to R126) -/

section cycle
variable {s t : State}

/-- A step of a state that is not final is the cycle on the word at `pc`, and no stage behind Fetch has faulted. -/
theorem step_next_advance (hs : s.halted = false) (h : step s = .next t) :
    s.stageFaults = [] ∧ t = s.advance (s.ifetch s.pc) := by
  simpa using step_next_of_not_halted hs h

theorem taken_eq_false_iff : s.taken = false ↔ ¬ s.branchTaken := by
  rw [← taken_iff, Bool.not_eq_true]

theorem stall_eq_false_iff : s.stall = false ↔ ¬ s.loadUseHazard := by
  rw [← stall_iff, Bool.not_eq_true]

/-- A squash changes only the word of the next EX/MEM latch (R121). -/
theorem nextExmem_eq :
    s.nextExmem = { s.executeStage with instr := if s.taken then noopWord else s.idex.instr } := by
  cases ht : s.taken with
  | true => rw [nextExmem_taken ht]; rfl
  | false => rw [nextExmem_normal ht]; rfl

/-- Only a LW or a SW accesses data memory (R113). -/
theorem access_ne_none_iff {c : Config} {w : Word} :
    (wordPath c w).access ≠ .none ↔ kindOf c.highBits w ∈ ([.LW, .SW] : List Kind) := by
  simp only [List.mem_cons, List.not_mem_nil, or_false, ← access_read_iff, ← access_write_iff]
  cases (wordPath c w).access <;> decide

/-- No stage behind Fetch faults, in the spec's own terms (R58, R117). -/
theorem stageFaults_nil_iff : s.stageFaults = [] ↔
    (∀ r, writesTo s.config s.memwb.instr r → r < 8) ∧
    (kindOf s.config.highBits s.exmem.instr ∈ ([.LW, .SW] : List Kind) →
      0 ≤ signed s.exmem.aluResult ∧ signed s.exmem.aluResult < (s.config.dmemWords : Int)) := by
  simp only [stageFaults_nil, writebackFault_nil, memoryFault_nil, writesTo_iff_destOf, ← access_ne_none_iff,
    ← inRange_iff]
  rfl

/-- A destination that names no register is the only reason where EX/MEM accesses nothing (R117). -/
theorem stageFaults_of_missing_destination {d : Nat} (hdest : destOf s.config s.memwb.instr = some d) (hd : 8 ≤ d)
    (haccess : kindOf s.config.highBits s.exmem.instr ∉ ([.LW, .SW] : List Kind)) :
    s.stageFaults = [.destOutOfRange d] := by
  have hmem : s.memoryFault = [] := memoryFault_nil.mpr fun h => absurd (access_ne_none_iff.mp h) haccess
  simp only [State.stageFaults, hmem, State.writebackFault, hdest, if_neg (not_lt.mpr hd), List.append_nil]

/-- Decode's offset is the two's-complement reading of the immediate (R78, R104). -/
theorem decodeStage_eq : s.decodeStage = ⟨s.ifid.instr, s.ifid.pcPlus1, s.reg.read (fieldA s.ifid.instr),
    s.reg.read (fieldB s.ifid.instr), (field16 s.ifid.instr).toInt⟩ := by
  rw [← sext16_eq_toInt]; rfl

/-- Memory passes on the loaded word of a LW (R114). -/
theorem memoryStage_of_read (h : s.access = .read) :
    s.memoryStage = ⟨s.exmem.instr, s.memRead s.ea⟩ := by
  simp [State.memoryStage, h]

/-- Memory passes on the ALU result of every other word (R114; D11, log 11). -/
theorem memoryStage_of_not_read (h : s.access ≠ .read) :
    s.memoryStage = ⟨s.exmem.instr, s.exmem.aluResult⟩ := by
  cases ha : s.access with
  | read => exact absurd ha h
  | none | write => simp [State.memoryStage, ha]

end cycle

/-! ## Registers after Writeback, and operands after forwarding, one at a time (R106 to R109, R116) -/

section operands
variable {s : State} {r : Reg}

/-- Writeback as one register reads it (R116). -/
theorem nextReg_read : s.nextReg.read r =
    if destOf s.config s.memwb.instr = some r.val then s.memwb.writeData else s.reg.read r := by
  cases hd : destOf s.config s.memwb.instr with
  | none => simp [nextReg_none hd]
  | some d => simp [nextReg_some hd, read_write, eq_comm]

/-- A register once the words in MEM/WB and EX/MEM have been written back. -/
theorem regAfterOlder_read : s.regAfterOlder.read r =
    if destOf s.config s.exmem.instr = some r.val then s.memoryStage.writeData else s.nextReg.read r := by
  unfold State.regAfterOlder
  cases destOf s.config s.exmem.instr with
  | none => simp
  | some d => simp [read_write, eq_comm]

theorem forwardFrom_fst (a b : Reg) (ops : Word × Word) (dest : Option Nat) (v : Word) :
    (forwardFrom a b ops dest v).1 = if dest = some a.val then v else ops.1 := by
  cases dest <;> simp [forwardFrom, eq_comm]

theorem forwardFrom_snd (a b : Reg) (ops : Word × Word) (dest : Option Nat) (v : Word) :
    (forwardFrom a b ops dest v).2 = if dest = some b.val then v else ops.2 := by
  cases dest <;> simp [forwardFrom, eq_comm]

/-- The multiplexer for one operand: what a word in ID/EX that takes forwarding uses for register `r`, where Decode
read `v` (R107 to R109). -/
def State.forwardedTo (s : State) (r : Reg) (v : Word) : Word :=
  if (wordPath s.config s.exmem.instr).forwardsAlu = true ∧ destOf s.config s.exmem.instr = some r.val then
    s.exmem.aluResult
  else if destOf s.config s.memwb.instr = some r.val then s.memwb.writeData
  else if destOf s.config s.wbend.instr = some r.val then s.wbend.writeData
  else v

/-- A forwarding source in EX/MEM, in the spec's own terms (R108). -/
theorem exmem_source_iff :
    (kindOf s.config.highBits s.exmem.instr ∈ ([.ADD, .NOR] : List Kind) ∧ writesTo s.config s.exmem.instr r.val) ↔
      (wordPath s.config s.exmem.instr).forwardsAlu = true ∧ destOf s.config s.exmem.instr = some r.val := by
  simp [forwardsAlu_iff, writesTo_iff_destOf]

/-- The nearest producer wins: `E`, `M` and `W` say that EX/MEM, MEM/WB and WB/END are sources for `r` (R107). -/
theorem forwardedTo_nearest {v : Word} {E M W : Prop}
    (hE : E ↔ (wordPath s.config s.exmem.instr).forwardsAlu = true ∧ destOf s.config s.exmem.instr = some r.val)
    (hM : M ↔ destOf s.config s.memwb.instr = some r.val) (hW : W ↔ destOf s.config s.wbend.instr = some r.val) :
    (E → s.forwardedTo r v = s.exmem.aluResult) ∧
    (¬ E → M → s.forwardedTo r v = s.memwb.writeData) ∧
    (¬ E → ¬ M → W → s.forwardedTo r v = s.wbend.writeData) ∧
    (¬ E → ¬ M → ¬ W → s.forwardedTo r v = v) := by
  rw [hE, hM, hW, State.forwardedTo]
  refine ⟨fun he => if_pos he, fun he hm => ?_, fun he hm hw => ?_, fun he hm hw => ?_⟩
  · rw [if_neg he, if_pos hm]
  · rw [if_neg he, if_neg hm, if_pos hw]
  · rw [if_neg he, if_neg hm, if_neg hw]

/-- The multiplexer treats field A and field B alike (R109). -/
theorem forwarded_eq : s.forwarded =
    (s.forwardedTo (fieldA s.idex.instr) s.idex.readRegA, s.forwardedTo (fieldB s.idex.instr) s.idex.readRegB) := by
  unfold State.forwarded State.forwardedTo
  cases (wordPath s.config s.exmem.instr).forwardsAlu <;> ext1 <;> simp [forwardFrom_fst, forwardFrom_snd]

theorem operands_of_takesForwarding (h : (wordPath s.config s.idex.instr).takesForwarding = true) :
    s.operands = (s.forwardedTo (fieldA s.idex.instr) s.idex.readRegA,
      s.forwardedTo (fieldB s.idex.instr) s.idex.readRegB) := by
  rw [State.operands, if_pos h, forwarded_eq]

/-- What an operand is forwarded to is the register's value once the older words are written back: the read value
is as fresh as WB/END makes it, and a LW in EX/MEM does not load the register (R131). -/
theorem forwardedTo_eq_regAfterOlder {v : Word}
    (hfresh : (if destOf s.config s.wbend.instr = some r.val then s.wbend.writeData else v) = s.reg.read r)
    (hgap : kindOf s.config.highBits s.exmem.instr = .LW → fieldB s.exmem.instr ≠ r) :
    s.forwardedTo r v = s.regAfterOlder.read r := by
  rw [State.forwardedTo, hfresh, regAfterOlder_read, ← nextReg_read]
  cases hf : (wordPath s.config s.exmem.instr).forwardsAlu with
  | true =>
    have haccess : (wordPath s.config s.exmem.instr).access = .none := by
      by_contra h
      rcases (forwardsAlu_iff _ _).mp hf with hk | hk <;> simp [access_ne_none_iff, hk] at h
    simp [State.memoryStage, State.access, haccess]
  | false =>
    have hdest : destOf s.config s.exmem.instr ≠ some r.val := by
      rw [ne_eq, ← writesTo_iff_destOf]
      rintro (⟨hk, -⟩ | ⟨hk, hr⟩)
      · simp [← forwardsAlu_iff, hf] at hk
      · exact hgap hk (Fin.ext hr.symm)
    simp [hdest]

end operands

/-! ## The statements on the invariant -/

/-- The cycle that moves a word into ID/EX reads the register file that WB/END then completes. -/
theorem forwardFrom_memwb (s : State) (a b : Reg) :
    forwardFrom a b (s.reg.read a, s.reg.read b) (destOf s.config s.memwb.instr) s.memwb.writeData
      = (s.nextReg.read a, s.nextReg.read b) := by
  ext1 <;> simp only [forwardFrom_fst, forwardFrom_snd, nextReg_read]

/-- A cycle on any fetched word keeps the invariant: what enters ID/EX is either a NOOP or what Decode has just
read, and then the word that enters EX/MEM has been stall-checked against it. -/
theorem inv_advance {s : State} (h : s.Inv) (hf : s.stageFaults = []) (w : Word) : (s.advance w).Inv := by
  have hdmem := nextDmem_wf (stageFaults_nil.mp hf).2 h.dmemCanonical
  by_cases hb : s.taken = true ∨ s.stall = true
  · have hnoop : kindOf s.config.highBits (s.advance w).idex.instr = .NOOP := by
      rw [advance_idex, nextIdex_bubble hb, kindOf_noopWord]
    exact
      { imemCanonical := h.imemCanonical
        dmemCanonical := hdmem
        loadUseGap := fun _ htf => absurd hnoop ((takesForwarding_iff _ _).mp htf).2
        offsetOfWord := fun hk => absurd hnoop hk
        operandsFresh := fun hk => absurd hnoop hk }
  · obtain ⟨ht, hs⟩ : s.taken = false ∧ s.stall = false := by simpa using hb
    have hidex : (s.advance w).idex = s.decodeStage := nextIdex_normal ht hs
    have hexmem : (s.advance w).exmem = s.executeStage := nextExmem_normal ht
    exact
      { imemCanonical := h.imemCanonical
        dmemCanonical := hdmem
        loadUseGap := fun hlw _ => by
          rw [hexmem, executeStage_instr] at hlw ⊢
          rw [hidex, decodeStage_instr]
          simpa [State.stall, show kindOf s.config.highBits s.idex.instr = .LW from hlw] using hs
        offsetOfWord := fun _ => by rw [hidex]; rfl
        operandsFresh := fun _ => by rw [hidex]; exact forwardFrom_memwb s _ _ }

/-- Settles O37: a final state steps to itself, and every other step is one cycle. -/
theorem stepKeepsTheInvariant : Obligations.StepKeepsTheInvariant := by
  intro s t hinv h
  rcases step_next h with ⟨-, rfl⟩ | ⟨-, -, hf, rfl⟩
  · exact hinv
  · exact inv_advance hinv hf _

/-! ## What a word in Execute reads (R131) -/

section reads
variable {s : State}

/-- Only a LW reads field A and not field B (R36). -/
theorem readsB_iff_readsA {k : Kind} : readsB k = true ↔ readsA k = true ∧ k ≠ .LW := by
  cases k <;> decide

/-- A kind that reads a register takes forwarding (R36, R84). -/
theorem takesForwarding_of_readsA {c : Config} {w : Word} (h : readsA (kindOf c.highBits w) = true) :
    (wordPath c w).takesForwarding = true := by
  rw [takesForwarding_iff]
  constructor <;> intro hk <;> rw [hk] at h <;> cases h

/-- The freshness of the register values in ID/EX, one operand at a time. -/
theorem readRegs_fresh (hinv : s.Inv) (hk : kindOf s.config.highBits s.idex.instr ≠ .NOOP) :
    (if destOf s.config s.wbend.instr = some (fieldA s.idex.instr).val then s.wbend.writeData else s.idex.readRegA)
      = s.reg.read (fieldA s.idex.instr) ∧
    (if destOf s.config s.wbend.instr = some (fieldB s.idex.instr).val then s.wbend.writeData else s.idex.readRegB)
      = s.reg.read (fieldB s.idex.instr) := by
  simpa only [Prod.ext_iff, forwardFrom_fst, forwardFrom_snd] using hinv.operandsFresh hk

/-- A LW in EX/MEM loads no register that the word in ID/EX reads: the load-use stall came between (R127, R128). -/
theorem fields_ne_of_load (hinv : s.Inv) (hA : readsA (kindOf s.config.highBits s.idex.instr) = true)
    (hlw : kindOf s.config.highBits s.exmem.instr = .LW) :
    fieldB s.exmem.instr ≠ fieldA s.idex.instr ∧
      (kindOf s.config.highBits s.idex.instr ≠ .LW → fieldB s.exmem.instr ≠ fieldB s.idex.instr) := by
  have hno := Bool.eq_false_iff.mp (hinv.loadUseGap hlw (takesForwarding_of_readsA hA))
  rw [ne_eq, stallChecks_iff] at hno
  have hreader := (readsA_iff _).mp hA
  exact ⟨fun h => hno ⟨.inl h.symm, .inr hreader⟩, fun hk h => hno ⟨.inr ⟨hk, h.symm⟩, .inr hreader⟩⟩

end reads

/-- Settles O30: each operand by `forwardedTo_eq_regAfterOlder`, the invariant giving the freshness of what was
read and the gap behind a LW. -/
theorem operandsAreTheSequentialValues : Obligations.OperandsAreTheSequentialValues := by
  intro s hinv
  have hoperands (hA : readsA (kindOf s.config.highBits s.idex.instr) = true) :=
    operands_of_takesForwarding (takesForwarding_of_readsA hA)
  have hfresh (hA : readsA (kindOf s.config.highBits s.idex.instr) = true) :=
    readRegs_fresh hinv ((takesForwarding_iff _ _).mp (takesForwarding_of_readsA hA)).2
  constructor
  · intro hA
    rw [hoperands hA]
    exact forwardedTo_eq_regAfterOlder (hfresh hA).1 fun hlw => (fields_ne_of_load hinv hA hlw).1
  · intro hB
    obtain ⟨hA, hk⟩ := readsB_iff_readsA.mp hB
    rw [hoperands hA]
    exact forwardedTo_eq_regAfterOlder (hfresh hA).2 fun hlw => (fields_ne_of_load hinv hA hlw).2 hk

/-! ## The statements on one cycle -/

/-- Settles O10: past the halt test and the range check a step is the meaning of the decoded word. -/
theorem stepRunsTheDecodedInstruction : Obligations.StepRunsTheDecodedInstruction := by
  rintro s i hs hpc rfl
  rw [step, hs, if_neg Bool.false_ne_true, if_pos ((inRange_iff _ _).mpr hpc)]

/-- The word placed at `pc` is the one there (R57; log 23). -/
theorem ifetch_withFetchWord {s : State} (hpc : s.pcInRange)
    (hwf : Memory.wf s.config.imemFill s.config.imemWords s.imem = true) (w : Word) :
    (s.withFetchWord 32 w.toNat).ifetch s.pc = w := by
  rw [State.withFetchWord, if_pos ((inRange_iff _ _).mpr hpc), State.ifetch, mem_read_write hwf, if_pos rfl,
    Nat.mod_eq_of_lt w.isLt, BitVec.ofNat_toNat, BitVec.setWidth_eq]

/-- Settles O11: placing a word changes instruction memory only, and the step decodes what stands at `pc`. -/
theorem placedWordRuns : Obligations.PlacedWordRuns := by
  intro s w hs hpc hwf
  have hword := ifetch_withFetchWord hpc hwf w
  rw [withFetchWord_eq] at hword ⊢
  exact stepRunsTheDecodedInstruction _ _ hs hpc (congrArg (decode s.config.highBits) hword)

/-- Settles O12: the conditions are that no stage behind Fetch faults. -/
theorem everyInstructionIssues : Obligations.EveryInstructionIssues := by
  intro i s hdest haccess
  refine ⟨_, exec_next.mpr ⟨stageFaults_nil_iff.mpr ⟨hdest, haccess⟩, rfl⟩, rfl, fun hbr hhaz => ?_⟩
  exact ⟨nextIfid_normal (taken_eq_false_iff.mpr hbr) (stall_eq_false_iff.mpr hhaz),
    nextPc_normal (taken_eq_false_iff.mpr hbr) (stall_eq_false_iff.mpr hhaz)⟩

/-- Settles O20: the branch column of the kind table. -/
theorem takenIsABeqWithItsFlag : Obligations.TakenIsABeqWithItsFlag := fun _ => taken_iff

/-- Settles O22: the three cases of the next pc. -/
theorem nextPcPriority : Obligations.NextPcPriority := by
  intro s t hs h
  obtain ⟨-, rfl⟩ := step_next_advance hs h
  exact ⟨fun hbr => nextPc_taken (taken_iff.mpr hbr),
    fun hbr hhaz => nextPc_stall (taken_eq_false_iff.mpr hbr) (stall_iff.mpr hhaz),
    fun hbr hhaz => nextPc_normal (taken_eq_false_iff.mpr hbr) (stall_eq_false_iff.mpr hhaz)⟩

/-- Settles O23: each latch in its normal advance. -/
theorem normalAdvance : Obligations.NormalAdvance := by
  intro s t hs h hbr hhaz
  obtain ⟨-, rfl⟩ := step_next_advance hs h
  have ht := taken_eq_false_iff.mpr hbr
  have hst := stall_eq_false_iff.mpr hhaz
  exact ⟨nextIfid_normal ht hst, (nextIdex_normal ht hst).trans decodeStage_eq, nextExmem_normal ht, rfl, rfl,
    nextPc_normal ht hst⟩

/-- Settles O24: the stall's held latches, its bubble, and the later stages' normal advance. -/
theorem stallHoldsFetchAndDecode : Obligations.StallHoldsFetchAndDecode := by
  intro s t hs h hbr hhaz
  obtain ⟨-, rfl⟩ := step_next_advance hs h
  have ht := taken_eq_false_iff.mpr hbr
  have hst := stall_iff.mpr hhaz
  refine ⟨nextIfid_stall ht hst, nextPc_stall ht hst, ?_, nextExmem_normal ht, rfl, rfl⟩
  rw [advance_idex, nextIdex_bubble (.inr hst), decodeStage_eq]
  rfl

/-- Settles O25: a stall, squashed or not, leaves a NOOP in ID/EX, which is no LW. -/
theorem stallLastsOneCycle : Obligations.StallLastsOneCycle := by
  rintro s t hs h hhaz ⟨hlw, -⟩
  obtain ⟨-, rfl⟩ := step_next_advance hs h
  rw [advance_idex, nextIdex_bubble (.inr (stall_iff.mpr hhaz)), kindOf_noopWord] at hlw
  cases hlw

/-- Settles O26: a taken branch voids the three younger latches whether a word stalls or not. -/
theorem squashWinsOverStall : Obligations.SquashWinsOverStall := by
  constructor
  · intro s
    rw [← taken_iff, State.squashDepth]
    exact ⟨fun h => if_pos h, fun h => if_neg h⟩
  · intro s t hs h hbr
    obtain ⟨-, rfl⟩ := step_next_advance hs h
    have ht := taken_iff.mpr hbr
    exact ⟨nextIfid_taken ht, congrArg IdEx.instr (nextIdex_bubble (.inl ht)), congrArg ExMem.instr (nextExmem_taken ht),
      rfl, nextPc_taken ht, rfl⟩

/-- Settles O28: both operands come from `forwardedTo`, which tests the producers from the nearest on. -/
theorem nearestProducerWins : Obligations.NearestProducerWins := by
  intro s
  refine ⟨fun hk => ?_, fun hk => ?_⟩
  · rw [operands_of_takesForwarding ((takesForwarding_iff _ _).mpr (by simpa using hk))]
    exact ⟨forwardedTo_nearest exmem_source_iff writesTo_iff_destOf writesTo_iff_destOf,
      forwardedTo_nearest exmem_source_iff writesTo_iff_destOf writesTo_iff_destOf⟩
  · rw [State.operands, if_neg fun htf => ?_]
    obtain ⟨hhalt, hnoop⟩ := (takesForwarding_iff _ _).mp htf
    simp [hhalt, hnoop] at hk

/-- Settles O29: a squash aside, EX/MEM takes what Execute computes, its result by the ALU column of the kind table. -/
theorem executeComputes : Obligations.ExecuteComputes := by
  intro s t hs h
  obtain ⟨-, rfl⟩ := step_next_advance hs h
  rw [advance_exmem, nextExmem_eq]
  refine ⟨fun hk => alu_add _ _ hk .., fun hk => alu_nor _ _ hk .., fun hk => alu_address _ _ (by simpa using hk) ..,
    fun hk => alu_other _ _ ?_ .., rfl, beq_iff_eq, rfl, fun hbr => if_neg (mt taken_iff.mp hbr)⟩
  simp only [List.mem_cons, List.not_mem_nil, or_false] at hk
  rcases hk with hk | hk | hk | hk <;> simp [hk]

/-- Settles O31: the access of each kind, in range because the cycle does not fault. -/
theorem memoryStageAccesses : Obligations.MemoryStageAccesses := by
  intro s t hs h hwf
  obtain ⟨hf, rfl⟩ := step_next_advance hs h
  have hread : s.access = .read ↔ _ := access_read_iff s.config s.exmem.instr
  have hwrite : s.access = .write ↔ _ := access_write_iff s.config s.exmem.instr
  refine ⟨fun hk => ?_, fun hk => ?_, fun hk => ?_⟩
  · obtain ⟨h0, hsize⟩ := (stageFaults_nil_iff.mp hf).2 (by simp [hk])
    exact ⟨h0, hsize, memoryStage_of_read (hread.mpr hk), nextDmem_of_not_write (by simp [hwrite, hk])⟩
  · obtain ⟨h0, hsize⟩ := (stageFaults_nil_iff.mp hf).2 (by simp [hk])
    have hafter (a : Nat) := mem_read_write hwf (signed s.exmem.aluResult).toNat a s.exmem.storeData
    rw [advance_dmem, nextDmem_of_write (hwrite.mpr hk)]
    exact ⟨h0, hsize, memoryStage_of_not_read (by simp [hread, hk]), (hafter _).trans (if_pos rfl),
      fun a ha => (hafter a).trans (if_neg ha)⟩
  · simp only [List.mem_cons, List.not_mem_nil, or_false, not_or] at hk
    exact ⟨memoryStage_of_not_read (mt hread.mp hk.1), nextDmem_of_not_write (mt hwrite.mp hk.2)⟩

/-- Settles O32: Writeback as each register reads it. -/
theorem writebackCommits : Obligations.WritebackCommits := by
  intro s t hs h
  obtain ⟨-, rfl⟩ := step_next_advance hs h
  refine ⟨fun r hr => nextReg_read.trans (if_pos (writesTo_iff_destOf.mp hr)), fun r => nextReg_read_other, fun hk => ?_⟩
  refine nextReg_none (destOf_other _ _ ?_)
  simp only [List.mem_cons, List.not_mem_nil, or_false] at hk
  rcases hk with hk | hk | hk | hk | hk <;> simp [hk]

/-- Settles O33: the next WB/END latch is the Retire stage's. -/
theorem retirePassesOn : Obligations.RetirePassesOn := by
  intro s t hs h
  obtain ⟨-, rfl⟩ := step_next_advance hs h
  rfl

/-! ## One word passing down an idle pipeline -/

section passing
variable {s t : State} {w f d e m r : Word}

/-- The words in the five latches, from IF/ID to WB/END. -/
def State.Latches (s : State) (f d e m r : Word) : Prop :=
  s.ifid.instr = f ∧ s.idex.instr = d ∧ s.exmem.instr = e ∧ s.memwb.instr = m ∧ s.wbend.instr = r

/-- Neither hazard: no LW in ID/EX and no BEQ in EX/MEM; every word moves one stage on (R119). -/
theorem latches_advance (hl : s.Latches f d e m r) (hd : kindOf s.config.highBits d ≠ .LW)
    (he : kindOf s.config.highBits e ≠ .BEQ) (w : Word) :
    (s.advance w).Latches w f d e m ∧ (s.advance w).pc = s.pc + 1 := by
  obtain ⟨rfl, rfl, rfl, rfl, rfl⟩ := hl
  have ht : s.taken = false := taken_eq_false_iff.mpr fun h => he h.1
  have hs : s.stall = false := stall_eq_false_iff.mpr fun h => hd h.1
  exact ⟨⟨congrArg IfId.instr (nextIfid_normal ht hs), congrArg IdEx.instr (nextIdex_normal ht hs),
    congrArg ExMem.instr (nextExmem_normal ht), rfl, rfl⟩, nextPc_normal ht hs⟩

/-- `t` is `k` cycles behind `s` on the same program, and no register has changed. -/
structure State.QuietFrom (s : State) (k : Nat) (t : State) : Prop where
  config : t.config = s.config
  imem : t.imem = s.imem
  reg : t.reg = s.reg
  pc : t.pc = s.pc + k

/-- A cycle in which no word accesses data memory, branches, stalls or writes a register. -/
theorem quiet_advance {k : Nat} (hq : s.QuietFrom k t) (hl : t.Latches f d e m r)
    (hd : kindOf s.config.highBits d ≠ .LW) (he : kindOf s.config.highBits e ∉ ([.LW, .SW, .BEQ] : List Kind))
    (hm : destOf s.config m = none) (w : Word) :
    t.stageFaults = [] ∧ s.QuietFrom (k + 1) (t.advance w) ∧ (t.advance w).Latches w f d e m := by
  simp only [List.mem_cons, List.not_mem_nil, or_false, not_or] at he
  obtain ⟨hlw, hsw, hbeq⟩ := he
  obtain ⟨hc, himem, hreg, hpc⟩ := hq
  rw [← hc] at hd hlw hsw hbeq hm
  obtain ⟨hlatches, hnext⟩ := latches_advance hl hd hbeq w
  obtain ⟨rfl, rfl, rfl, rfl, rfl⟩ := hl
  refine ⟨stageFaults_nil_iff.mpr ⟨by simp [writesTo_iff_destOf, hm], by simp [hlw, hsw]⟩,
    ⟨hc, himem, (nextReg_none hm).trans hreg, ?_⟩, hlatches⟩
  rw [hnext, hpc]; push_cast; ring

/-- The word behind `pc` that the `k`-th cycle fetches. -/
theorem fetch_noop {n k : Nat} (hn : s.noopsBehind n) (hq : s.QuietFrom k t) (hk : 1 ≤ k) (hkn : k ≤ n) :
    t.ifetch t.pc = noopWord ∧ t.fetchFault = [] := by
  obtain ⟨h0, hsize, hnoop⟩ := hn
  have hpc : inRange t.pc t.config.imemWords = true := by
    rw [inRange_iff, hq.pc, hq.config]; omega
  refine ⟨?_, by rw [State.fetchFault, if_pos hpc]⟩
  rw [← hnoop k hk hkn, State.ifetch, State.ifetch, hq.pc, hq.config, hq.imem]

/-- The halt test reads the word in WB/END (R226). -/
theorem not_halted {k : Nat} (hq : s.QuietFrom k t) (hl : t.Latches f d e m r)
    (hr : kindOf s.config.highBits r ≠ .HALT) : t.halted = false := by
  obtain ⟨-, -, -, -, rfl⟩ := hl
  rw [← hq.config] at hr
  exact Bool.eq_false_iff.mpr (mt (halts_iff _ _).mp hr)

/-- A quiet step that fetches one of the NOOPs behind `pc`. -/
theorem quiet_step {n k : Nat} (hn : s.noopsBehind n) (hk : 1 ≤ k) (hkn : k ≤ n) (hq : s.QuietFrom k t)
    (hl : t.Latches f d e m r) (hd : kindOf s.config.highBits d ≠ .LW)
    (he : kindOf s.config.highBits e ∉ ([.LW, .SW, .BEQ] : List Kind)) (hm : destOf s.config m = none)
    (hr : kindOf s.config.highBits r ≠ .HALT) :
    ∃ t', step t = .next t' ∧ s.QuietFrom (k + 1) t' ∧ t'.Latches noopWord f d e m := by
  obtain ⟨hword, hfetch⟩ := fetch_noop hn hq hk hkn
  obtain ⟨hf, hq', hl'⟩ := quiet_advance hq hl hd he hm noopWord
  exact ⟨_, by rw [step_eq_settle (not_halted hq hl hr), hf, hfetch, hword, encode_decode]; rfl, hq', hl'⟩

end passing

/-- Settles O41: four quiet cycles take the instruction to MEM/WB, where its destination names no register. -/
theorem arithmeticTrapsOnAMissingDestination : Obligations.ArithmeticTrapsOnAMissingDestination := by
  intro s i hi rA rB dest hi_eq hwf hidle hn hmissing
  obtain ⟨hlw, haccess⟩ : kindOf s.config.highBits (encode i) ≠ .LW ∧
      kindOf s.config.highBits (encode i) ∉ ([.LW, .SW, .BEQ] : List Kind) := by
    rw [kindOf, decode_encode hwf]
    rcases hi_eq with rfl | rfl <;> simp [Instr.kind]
  have hdest : destOf s.config (encode i) = some (arithDest s.config dest) := by
    rw [destOf, wordPath, decode_encode hwf]
    rcases hi_eq with rfl | rfl <;> rfl
  have q0 : s.QuietFrom 0 s := ⟨rfl, rfl, rfl, by simp⟩
  obtain ⟨hf, q1, l1⟩ := quiet_advance q0 hidle (by simp) (by simp) (by simp) (encode i)
  obtain ⟨t2, step1, q2, l2⟩ := quiet_step hn (by omega) (by omega) q1 l1 (by simp) (by simp) (by simp) (by simp)
  obtain ⟨t3, step2, q3, l3⟩ := quiet_step hn (by omega) (by omega) q2 l2 hlw (by simp) (by simp) (by simp)
  obtain ⟨u, step3, q4, l4⟩ := quiet_step hn (by omega) (by omega) q3 l3 (by simp) haccess (by simp) (by simp)
  refine ⟨_, u, exec_next.mpr ⟨hf, rfl⟩, ?_, q4.reg, ?_⟩
  · rw [steps_succ_next step1, steps_succ_next step2, steps_succ_next step3, steps]
  · rw [step_eq_settle (not_halted q4 l4 (by simp)), (fetch_noop hn q4 (by omega) (by omega)).2, List.append_nil]
    obtain ⟨-, -, hexmem, hmemwb, -⟩ := l4
    have hwrites : destOf u.config u.memwb.instr = some (arithDest s.config dest) := by rw [q4.config, hmemwb, hdest]
    rw [stageFaults_of_missing_destination hwrites hmissing (by simp [hexmem])]
    rfl

end Sys2Proof.Machine

namespace Sys2Proof.Machine

/-! ## An instruction's values passing down an idle pipeline -/

section values
variable {s t : State} {f d e m r : Word} {i : Instr} {n k : Nat}

/-- Some steps and then the rest. -/
theorem steps_add_of_next (h : steps k s = .next t) : steps (k + n) s = steps n t := by
  induction k generalizing s with
  | zero => cases h; rw [Nat.zero_add]
  | succ k ih =>
    cases hstep : step s with
    | next s' =>
      rw [steps_succ_next hstep] at h
      rw [Nat.succ_add, steps_succ_next hstep, ih h]
    | fault x => rw [steps_succ_fault hstep] at h; cases h
    | refused x => exact absurd hstep (step_not_refused s x)

/-- What an instruction's word does in a stage is what its own row of the kind table says. -/
theorem wordPath_encode {c : Config} (hwf : i.wellFormed c.highBits = true) : wordPath c (encode i) = pathOf c i := by
  rw [wordPath, decode_encode hwf]

/-- The kind of an instruction's word. -/
theorem kindOf_encode {p : HighBitsPolicy} (hwf : i.wellFormed p = true) : kindOf p (encode i) = i.kind := by
  rw [kindOf, decode_encode hwf]

/-- The EX/MEM latch that Execute makes of `i`, fetched at `s.pc`, on the registers of `s` (R104, R110, R111). -/
def State.executed (s : State) (i : Instr) : ExMem where
  instr := encode i
  branchTarget := branchTargetOf (s.pc + 1) (sext16 i.f16)
  eq := equalityFlag (s.reg.read i.rA) (s.reg.read i.rB)
  aluResult := (pathOf s.config i).alu (s.reg.read i.rA) (s.reg.read i.rB) (sext16 i.f16)
  storeData := s.reg.read i.rB

/-- Neither hazard signal: no LW in ID/EX and no BEQ in EX/MEM (R105, R112). -/
theorem no_hazard (hl : t.Latches f d e m r) (hd : kindOf t.config.highBits d ≠ .LW)
    (he : kindOf t.config.highBits e ≠ .BEQ) : t.taken = false ∧ t.stall = false := by
  obtain ⟨-, rfl, rfl, -, -⟩ := hl
  exact ⟨taken_eq_false_iff.mpr fun h => he h.1, stall_eq_false_iff.mpr fun h => hd h.1⟩

/-- Where no older word in flight writes a register, Execute uses what Decode read (R106 to R109). -/
theorem operands_of_no_writers (he : destOf s.config s.exmem.instr = none) (hm : destOf s.config s.memwb.instr = none)
    (hr : destOf s.config s.wbend.instr = none) : s.operands = (s.idex.readRegA, s.idex.readRegB) := by
  simp [State.operands, forwarded_eq, State.forwardedTo, he, hm, hr]

/-- A quiet stretch with its memory and its count: data memory is as it was, and each of the `k` cycles counted. -/
structure State.UntouchedFrom (s : State) (k : Nat) (t : State) : Prop extends s.QuietFrom k t where
  dmem : t.dmem = s.dmem
  cycles : t.cycles = s.cycles + k

/-- A quiet cycle leaves data memory alone and counts (R27, R113). -/
theorem untouched_advance (hu : s.UntouchedFrom k t) (hl : t.Latches f d e m r) (hd : kindOf s.config.highBits d ≠ .LW)
    (he : kindOf s.config.highBits e ∉ ([.LW, .SW, .BEQ] : List Kind)) (hm : destOf s.config m = none) (w : Word) :
    t.stageFaults = [] ∧ s.UntouchedFrom (k + 1) (t.advance w) ∧ (t.advance w).Latches w f d e m := by
  obtain ⟨hf, hq', hl'⟩ := quiet_advance hu.toQuietFrom hl hd he hm w
  have hwrite : t.access ≠ .write := by
    obtain ⟨-, -, rfl, -, -⟩ := hl
    rw [State.access, ne_eq, access_write_iff, hu.config]
    exact fun h => he (by simp [h])
  exact ⟨hf, ⟨hq', (nextDmem_of_not_write hwrite).trans hu.dmem, congrArg (· + 1) hu.cycles⟩, hl'⟩

/-- A step that fetches one of the NOOPs behind `pc`, no stage behind Fetch faulting. -/
theorem step_fetching_noop (hn : s.noopsBehind n) (hk : 1 ≤ k) (hkn : k ≤ n) (hq : s.QuietFrom k t)
    (hl : t.Latches f d e m r) (hr : kindOf s.config.highBits r ≠ .HALT) (hf : t.stageFaults = []) :
    step t = .next (t.advance noopWord) := by
  obtain ⟨hword, hfetch⟩ := fetch_noop hn hq hk hkn
  rw [step_eq_settle (not_halted hq hl hr), hf, hfetch, hword, encode_decode]
  rfl

/-- A quiet step, with the state it answers. -/
theorem untouched_step (hn : s.noopsBehind n) (hk : 1 ≤ k) (hkn : k ≤ n) (hu : s.UntouchedFrom k t)
    (hl : t.Latches f d e m r) (hd : kindOf s.config.highBits d ≠ .LW)
    (he : kindOf s.config.highBits e ∉ ([.LW, .SW, .BEQ] : List Kind)) (hm : destOf s.config m = none)
    (hr : kindOf s.config.highBits r ≠ .HALT) :
    step t = .next (t.advance noopWord) ∧ s.UntouchedFrom (k + 1) (t.advance noopWord) ∧
      (t.advance noopWord).Latches noopWord f d e m := by
  obtain ⟨hf, hu', hl'⟩ := untouched_advance hu hl hd he hm noopWord
  exact ⟨step_fetching_noop hn hk hkn hu.toQuietFrom hl hr hf, hu', hl'⟩

/-- Decode of an instruction's word reads the registers its fields name (R104). -/
theorem decodeStage_encode (hwf : i.wellFormed t.config.highBits = true) {p : Int} (h : t.ifid = ⟨encode i, p⟩) :
    t.decodeStage = ⟨encode i, p, t.reg.read i.rA, t.reg.read i.rB, sext16 i.f16⟩ := by
  obtain ⟨-, hA, hB, hf16⟩ := decode_fields t.config.highBits (encode i)
  rw [decode_encode hwf] at hA hB hf16
  rw [State.decodeStage, h, hA, hB, hf16]

/-- Execute on what Decode read, where nothing is forwarded (R110, R111). -/
theorem executeStage_eq_executed (hwf : i.wellFormed s.config.highBits = true) (hc : t.config = s.config)
    (hidex : t.idex = ⟨encode i, s.pc + 1, s.reg.read i.rA, s.reg.read i.rB, sext16 i.f16⟩)
    (hl : t.Latches f d noopWord noopWord noopWord) : t.executeStage = s.executed i := by
  obtain ⟨-, -, he, hm, hr⟩ := hl
  have hops := operands_of_no_writers (s := t) (by simp [he]) (by simp [hm]) (by simp [hr])
  rw [State.executeStage, hops, hidex, hc, wordPath_encode hwf]
  rfl

/-- Fetch, Decode and Execute of an instruction that is no LW: it stands in EX/MEM with what Execute makes of it on
the registers it was issued with, and nothing has changed. -/
theorem passes_to_exmem (hwf : i.wellFormed s.config.highBits = true) (hidle : s.Idle) (hn : s.noopsBehind n)
    (h2n : 2 ≤ n) (hlw : i.kind ≠ .LW) :
    ∃ t u, exec i s = .next t ∧ steps 2 t = .next u ∧ s.UntouchedFrom 3 u ∧
      u.Latches noopWord noopWord (encode i) noopWord noopWord ∧ u.exmem = s.executed i := by
  have hkind := kindOf_encode hwf
  have u0 : s.UntouchedFrom 0 s := ⟨⟨rfl, rfl, rfl, by simp⟩, rfl, rfl⟩
  obtain ⟨hf, u1, l1⟩ := untouched_advance u0 hidle (by simp) (by simp) (by simp) (encode i)
  obtain ⟨step1, u2, l2⟩ := untouched_step hn (by omega) (by omega) u1 l1 (by simp) (by simp) (by simp) (by simp)
  obtain ⟨step2, u3, l3⟩ := untouched_step hn (by omega) (by omega) u2 l2 (hkind ▸ hlw) (by simp) (by simp) (by simp)
  refine ⟨_, _, exec_next.mpr ⟨hf, rfl⟩, by rw [steps_succ_next step1, steps_succ_next step2, steps], u3, l3, ?_⟩
  have ⟨ht0, hs0⟩ := no_hazard hidle (by simp) (by simp)
  have ⟨ht1, hs1⟩ := no_hazard l1 (by simp) (by simp)
  have ⟨ht2, _⟩ := no_hazard l2 (by rw [u2.config, hkind]; exact hlw) (by simp)
  have hdecode := decodeStage_encode (t := s.advance (encode i)) (u1.config ▸ hwf) (nextIfid_normal (w := encode i) ht0 hs0)
  rw [u1.reg] at hdecode
  exact (nextExmem_normal ht2).trans
    (executeStage_eq_executed hwf u2.config ((nextIdex_normal ht1 hs1).trans hdecode) l2)

/-- The destination index of an ADD or NOR, as its word names it (R79, R82). -/
theorem destOf_encode_arith {c : Config} (hwf : i.wellFormed c.highBits = true)
    (hkind : i.kind ∈ ([.ADD, .NOR] : List Kind)) : destOf c (encode i) = some (arithDest c i.f16) := by
  obtain ⟨-, -, -, hf16⟩ := decode_fields c.highBits (encode i)
  rw [decode_encode hwf] at hf16
  rw [destOf_arith _ _ (by simpa [kindOf_encode hwf] using hkind), hf16]

/-- The Memory stage of an instruction that neither accesses data memory nor branches passes its ALU result on (R114):
the instruction stands in MEM/WB with it, and nothing has changed. -/
theorem passes_to_memwb (hwf : i.wellFormed s.config.highBits = true) (hidle : s.Idle) (hn : s.noopsBehind n)
    (h3n : 3 ≤ n) (hquiet : i.kind ∉ ([.LW, .SW, .BEQ] : List Kind)) :
    ∃ t u, exec i s = .next t ∧ steps 3 t = .next u ∧ s.UntouchedFrom 4 u ∧
      u.Latches noopWord noopWord noopWord (encode i) noopWord ∧ u.memwb = ⟨encode i, (s.executed i).aluResult⟩ := by
  have hkind := kindOf_encode hwf
  have hlw : i.kind ≠ .LW := fun h => hquiet (by simp [h])
  obtain ⟨t, v, hexec, hsteps, u3, l3, hexmem⟩ := passes_to_exmem hwf hidle hn (by omega) hlw
  obtain ⟨step3, u4, l4⟩ := untouched_step hn (by omega) (by omega) u3 l3 (by simp) (hkind ▸ hquiet) (by simp) (by simp)
  refine ⟨t, _, hexec, ?_, u4, l4, ?_⟩
  · rw [steps_add_of_next (n := 1) hsteps, steps_succ_next step3, steps]
  · have hread : v.access ≠ .read := by
      rw [State.access, ne_eq, access_read_iff, hexmem, u3.config]
      exact hkind ▸ hlw
    rw [advance_memwb, memoryStage_of_not_read hread, hexmem]
    rfl

/-- The whole passage of an ADD or NOR whose destination is a register: Writeback writes the ALU's result (R116). -/
theorem arithmetic_completes (hwf : i.wellFormed s.config.highBits = true) (hidle : s.Idle) (hn : s.noopsBehind 4)
    (hkind : i.kind ∈ ([.ADD, .NOR] : List Kind)) (hd : arithDest s.config i.f16 < 8) :
    ∃ t u, exec i s = .next t ∧ steps 4 t = .next u ∧
      u.reg = s.reg.write (arithDest s.config i.f16) (s.executed i).aluResult ∧
      u.dmem = s.dmem ∧ u.imem = s.imem ∧ u.config = s.config ∧ u.pc = s.pc + 5 ∧ u.cycles = s.cycles + 5 ∧
      u.wbend.instr = encode i := by
  have hquiet : i.kind ∉ ([.LW, .SW, .BEQ] : List Kind) := by
    rcases (by simpa using hkind : i.kind = .ADD ∨ i.kind = .NOR) with h | h <;> simp [h]
  obtain ⟨t, v, hexec, hsteps, u4, l4, hmemwb⟩ := passes_to_memwb hwf hidle hn (by omega) hquiet
  have hdest : destOf v.config v.memwb.instr = some (arithDest s.config i.f16) := by
    rw [hmemwb, u4.config, destOf_encode_arith hwf hkind]
  have ⟨_, _, hnoop, _, _⟩ := l4
  have hf : v.stageFaults = [] := by
    rw [stageFaults_nil, writebackFault_nil, memoryFault_nil, hdest]
    exact ⟨fun _ h => Option.some.inj h ▸ hd, by simp [State.access, hnoop, noopPath]⟩
  have step4 := step_fetching_noop hn (by omega) (by omega) u4.toQuietFrom l4 (by simp) hf
  obtain ⟨⟨-, -, -, -, hwbend⟩, hpc⟩ := latches_advance l4 (by simp) (by simp) noopWord
  refine ⟨t, v.advance noopWord, hexec, ?_, ?_, ?_, u4.imem, u4.config, ?_, congrArg (· + 1) u4.cycles, hwbend⟩
  · rw [steps_add_of_next (n := 1) hsteps, steps_succ_next step4, steps]
  · rw [advance_reg, nextReg_some hdest, u4.reg, hmemwb]
  · exact (nextDmem_of_not_write (by simp [State.access, hnoop, noopPath])).trans u4.dmem
  · rw [hpc, u4.pc]; push_cast; ring

end values

/-- Settles O39: `arithmetic_completes`, the ALU function of ADD's row being the sum (R111). -/
theorem addCompletes : Obligations.AddCompletes :=
  fun _ _ _ _ _ hwf hidle hn hd => arithmetic_completes hwf hidle hn (by simp [Instr.kind]) hd

/-- Settles O40: `arithmetic_completes`, the ALU function of NOR's row being the not-or (R111). -/
theorem norCompletes : Obligations.NorCompletes :=
  fun _ _ _ _ _ hwf hidle hn hd => arithmetic_completes hwf hidle hn (by simp [Instr.kind]) hd

end Sys2Proof.Machine

namespace Sys2Proof.Machine

/-! ## A LW or a SW passing down an idle pipeline (42_memory_ops R160 to R162) -/

section memoryOps
variable {s t m : State} {d e r w : Word} {i : Instr} {n k : Nat}

/-- The NOOP word names r0 in both fields, so it is stall-checked behind a load of r0 alone (R83, R105; D9, log 5). -/
theorem loadUsePair_noopWord {c : Config} (hwf : i.wellFormed c.highBits = true) :
    loadUsePair c (encode i) noopWord ↔ i.kind = .LW ∧ c.stallCheckNonreaders = true ∧ i.rB = 0 := by
  obtain ⟨-, -, hB, -⟩ := decode_fields c.highBits (encode i)
  rw [decode_encode hwf] at hB
  have hA0 : fieldA noopWord = 0 := by decide
  have hB0 : fieldB noopWord = 0 := by decide
  simp only [loadUsePair, kindOf_encode hwf, ← hB, hA0, hB0, kindOf_noopWord, eq_comm (a := (0 : Reg))]
  simp [and_comm]

/-- How far `pc` has gone on when `i`, issued with NOOPs behind it, stands in EX/MEM: the NOOP behind a load of r0
may have stalled. -/
def pcAdvanceToMemory (c : Config) (i : Instr) : Nat :=
  if i.kind = .LW ∧ c.stallCheckNonreaders = true ∧ i.rB = 0 then 2 else 3

theorem pcAdvanceToMemory_bounds (c : Config) (i : Instr) : 2 ≤ pcAdvanceToMemory c i ∧ pcAdvanceToMemory c i ≤ 3 := by
  unfold pcAdvanceToMemory
  split <;> omega

/-- The word index of the LW or SW `i` on the registers of `s` (R162; D12, log 12). -/
def State.accessIndex (s : State) (i : Instr) : Int := (s.reg.read i.rA + BitVec.ofInt 32 i.f16.toInt).toInt

/-- With the NOOP word in IF/ID a stall and a normal advance move the same words: either way a NOOP follows into
ID/EX, and only `pc` tells them apart (R119, R120, R122). `stalls` says when the hazard is there. -/
theorem latches_advance_behind_noop {stalls : Prop} [Decidable stalls] (hl : t.Latches noopWord d e w r)
    (he : kindOf t.config.highBits e ≠ .BEQ) (hpair : loadUsePair t.config d noopWord ↔ stalls) :
    (t.advance noopWord).Latches noopWord noopWord d e w ∧ (t.advance noopWord).pc = t.pc + if stalls then 0 else 1 := by
  obtain ⟨hifid, rfl, rfl, rfl, -⟩ := hl
  rw [← hifid] at hpair
  have ht : t.taken = false := taken_eq_false_iff.mpr fun h => he h.1
  have hexmem := congrArg ExMem.instr (nextExmem_normal ht)
  by_cases hstall : stalls
  · have hs : t.stall = true := stall_iff.mpr (hpair.mpr hstall)
    rw [if_pos hstall, add_zero]
    exact ⟨⟨(congrArg IfId.instr (nextIfid_stall ht hs)).trans hifid, congrArg IdEx.instr (nextIdex_bubble (.inr hs)),
      hexmem, rfl, rfl⟩, nextPc_stall ht hs⟩
  · have hs : t.stall = false := stall_eq_false_iff.mpr (mt hpair.mp hstall)
    rw [if_neg hstall]
    exact ⟨⟨congrArg IfId.instr (nextIfid_normal ht hs), (congrArg IdEx.instr (nextIdex_normal ht hs)).trans hifid,
      hexmem, rfl, rfl⟩, nextPc_normal ht hs⟩

/-- A NOOP in EX/MEM stores nothing (R113, R181). -/
theorem nextDmem_of_noop (he : t.exmem.instr = noopWord) : t.nextDmem = t.dmem :=
  nextDmem_of_not_write (by simp [State.access, he, noopPath])

/-- A NOOP in MEM/WB writes no register (R116, R181). -/
theorem nextReg_of_noop (hm : t.memwb.instr = noopWord) : t.nextReg = t.reg :=
  nextReg_none (by simp [hm])

/-- Fetch and Decode of any instruction: it stands in ID/EX with the registers it was issued with. -/
theorem passes_to_idex (hwf : i.wellFormed s.config.highBits = true) (hidle : s.Idle) (hn : s.noopsBehind n)
    (h1n : 1 ≤ n) :
    ∃ t u, exec i s = .next t ∧ step t = .next u ∧ s.UntouchedFrom 2 u ∧
      u.Latches noopWord (encode i) noopWord noopWord noopWord ∧
      u.idex = ⟨encode i, s.pc + 1, s.reg.read i.rA, s.reg.read i.rB, sext16 i.f16⟩ := by
  have u0 : s.UntouchedFrom 0 s := ⟨⟨rfl, rfl, rfl, by simp⟩, rfl, rfl⟩
  obtain ⟨hf, u1, l1⟩ := untouched_advance u0 hidle (by simp) (by simp) (by simp) (encode i)
  obtain ⟨step1, u2, l2⟩ := untouched_step hn le_rfl h1n u1 l1 (by simp) (by simp) (by simp) (by simp)
  refine ⟨_, _, exec_next.mpr ⟨hf, rfl⟩, step1, u2, l2, ?_⟩
  have ⟨ht0, hs0⟩ := no_hazard hidle (by simp) (by simp)
  have ⟨ht1, hs1⟩ := no_hazard l1 (by simp) (by simp)
  have hdecode := decodeStage_encode (t := s.advance (encode i)) (u1.config ▸ hwf) (nextIfid_normal (w := encode i) ht0 hs0)
  rw [u1.reg] at hdecode
  exact (nextIdex_normal ht1 hs1).trans hdecode

/-- `m` is `s` three cycles on, with `i` in EX/MEM as Execute made it, NOOPs around it, and `pc` gone on by `k`. -/
structure State.AtMemory (s : State) (i : Instr) (k : Nat) (m : State) : Prop extends s.QuietFrom k m where
  dmem : m.dmem = s.dmem
  cycles : m.cycles = s.cycles + 3
  latches : m.Latches noopWord noopWord (encode i) noopWord noopWord
  exmem : m.exmem = s.executed i

/-- Fetch, Decode and Execute of any instruction, the NOOP behind it stalling or not. -/
theorem reaches_memory (hwf : i.wellFormed s.config.highBits = true) (hidle : s.Idle) (hn : s.noopsBehind n)
    (h2n : 2 ≤ n) :
    ∃ t m, exec i s = .next t ∧ steps 2 t = .next m ∧ s.AtMemory i (pcAdvanceToMemory s.config i) m := by
  obtain ⟨t, u, hexec, step1, u2, l2, hidex⟩ := passes_to_idex hwf hidle hn (by omega)
  have hf : u.stageFaults = [] := by
    obtain ⟨-, -, he, hm, -⟩ := l2
    simp [stageFaults_nil_iff, writesTo_iff_destOf, he, hm]
  have step2 := step_fetching_noop hn (by omega) h2n u2.toQuietFrom l2 (by simp) hf
  have hpair := loadUsePair_noopWord hwf
  rw [← u2.config] at hpair
  obtain ⟨l3, hpc⟩ := latches_advance_behind_noop l2 (by simp) hpair
  have ⟨_, _, he, hm, _⟩ := l2
  refine ⟨t, u.advance noopWord, hexec, by rw [steps_succ_next step1, steps_succ_next step2, steps], ?_⟩
  refine ⟨⟨u2.config, u2.imem, (nextReg_of_noop hm).trans u2.reg, ?_⟩, ?_, congrArg (· + 1) u2.cycles, l3, ?_⟩
  · rw [hpc, u2.pc, u2.config, pcAdvanceToMemory]
    split <;> push_cast <;> ring
  · exact (nextDmem_of_noop he).trans u2.dmem
  · have ht : u.taken = false := taken_eq_false_iff.mpr fun h => by simp [he, State.branchTaken] at h
    exact (nextExmem_normal ht).trans (executeStage_eq_executed hwf u2.config hidex l2)

/-- The registers are still those of `s` when `i` has passed Memory (R116). -/
theorem nextReg_atMemory (hm : s.AtMemory i k m) : m.nextReg = s.reg := by
  obtain ⟨-, -, -, hmemwb, -⟩ := hm.latches
  exact (nextReg_of_noop hmemwb).trans hm.reg

/-- The Memory stage of a LW or SW computes its word index (R111, R113, R162). -/
theorem ea_atMemory (hm : s.AtMemory i k m) (hwf : i.wellFormed s.config.highBits = true)
    (hkind : i.kind ∈ ([.LW, .SW] : List Kind)) : m.ea = s.accessIndex i := by
  have hk : kindOf s.config.highBits (encode i) = .LW ∨ kindOf s.config.highBits (encode i) = .SW := by
    simpa [kindOf_encode hwf] using hkind
  rw [State.ea, hm.exmem, State.executed, ← wordPath_encode hwf, alu_address _ _ hk, sext16_eq_toInt]
  rfl

/-- The cycle in which a LW or SW is in the Memory stage has its range check and no other (R58, R113). -/
theorem stageFaults_atMemory (hm : s.AtMemory i k m) (hwf : i.wellFormed s.config.highBits = true)
    (hkind : i.kind ∈ ([.LW, .SW] : List Kind)) : m.stageFaults = s.dataFault (s.accessIndex i) := by
  obtain ⟨-, -, he, hmemwb, -⟩ := hm.latches
  have haccess : m.access ≠ .none := by
    rw [State.access, he, access_ne_none_iff, hm.config, kindOf_encode hwf]
    exact hkind
  have hwb : m.writebackFault = [] := by simp [writebackFault_nil, hmemwb]
  rw [State.stageFaults, hwb, List.nil_append, State.memoryFault, ea_atMemory hm hwf hkind, State.dataFault,
    State.dataFault, hm.config]
  cases ha : m.access with
  | none => exact absurd ha haccess
  | read | write => rfl

/-- A LW or SW writes a register or nothing (R82). -/
theorem destOf_lt_of_access {c : Config} (hk : kindOf c.highBits w ∈ ([.LW, .SW] : List Kind)) {x : Nat}
    (hx : destOf c w = some x) : x < 8 := by
  rcases writesTo_iff_destOf.mpr hx with ⟨harith, -⟩ | ⟨-, rfl⟩
  · rcases (by simpa using hk : kindOf c.highBits w = .LW ∨ kindOf c.highBits w = .SW) with h | h <;>
      simp [h] at harith
  · exact (fieldB w).isLt

/-- Memory and Writeback of a LW or SW whose index is in range: data memory is what its Memory cycle left, and the
registers are what its Writeback cycle left. -/
theorem access_completes (hwf : i.wellFormed s.config.highBits = true) (hidle : s.Idle) (hn : s.noopsBehind 4)
    (hkind : i.kind ∈ ([.LW, .SW] : List Kind))
    (hrange : 0 ≤ s.accessIndex i ∧ s.accessIndex i < (s.config.dmemWords : Int)) :
    ∃ t m u, exec i s = .next t ∧ steps 4 t = .next u ∧ s.AtMemory i (pcAdvanceToMemory s.config i) m ∧
      u.reg = (m.advance noopWord).nextReg ∧ u.dmem = m.nextDmem ∧ u.imem = s.imem ∧ u.config = s.config ∧
      u.pc = s.pc + (pcAdvanceToMemory s.config i + 2 : Nat) ∧ u.cycles = s.cycles + 5 ∧ u.wbend.instr = encode i := by
  obtain ⟨t, m, hexec, hsteps, hm⟩ := reaches_memory hwf hidle hn (by omega)
  obtain ⟨h2, h3⟩ := pcAdvanceToMemory_bounds s.config i
  have hfm : m.stageFaults = [] := by
    rw [stageFaults_atMemory hm hwf hkind, State.dataFault, if_pos ((inRange_iff _ _).mpr hrange)]
  have step3 := step_fetching_noop hn (by omega) (by omega) hm.toQuietFrom hm.latches (by simp) hfm
  have hbeq : kindOf m.config.highBits (encode i) ≠ .BEQ := by
    rw [hm.config, kindOf_encode hwf]
    intro h
    simp [h] at hkind
  obtain ⟨l4, hpc4⟩ := latches_advance hm.latches (by simp) hbeq noopWord
  have q4 : s.QuietFrom (pcAdvanceToMemory s.config i + 1) (m.advance noopWord) :=
    ⟨hm.config, hm.imem, nextReg_atMemory hm, by rw [hpc4, hm.pc]; push_cast; ring⟩
  have ⟨_, _, hexmem4, hmemwb4, _⟩ := l4
  have hfv : (m.advance noopWord).stageFaults = [] := by
    rw [stageFaults_nil_iff, hmemwb4, hexmem4, q4.config]
    exact ⟨fun x hx => destOf_lt_of_access (by rw [kindOf_encode hwf]; exact hkind) (writesTo_iff_destOf.mp hx), by simp⟩
  have step4 := step_fetching_noop hn (by omega) (by omega) q4 l4 (by simp) hfv
  obtain ⟨⟨-, -, -, -, hwbend⟩, hpc5⟩ := latches_advance l4 (by simp) (by simp) noopWord
  refine ⟨t, m, (m.advance noopWord).advance noopWord, hexec, ?_, hm, rfl, ?_, q4.imem, q4.config, ?_,
    congrArg (· + 2) hm.cycles, hwbend⟩
  · rw [steps_add_of_next (n := 2) hsteps, steps_succ_next step3, steps_succ_next step4, steps]
  · exact nextDmem_of_noop hexmem4
  · rw [hpc5, q4.pc]; push_cast; ring

end memoryOps

/-- Settles O42: `access_completes`, the Memory stage reading the word that Writeback puts in rB (R114, R116). -/
theorem lwCompletes : Obligations.LwCompletes := by
  intro s hi rA rB off hwf hidle hn ea h0 hsize
  obtain ⟨t, m, u, hexec, hsteps, hm, hreg, hdmem, himem, hconfig, hpc, hcycles, hwbend⟩ :=
    access_completes hwf hidle hn (by simp [Instr.kind]) ⟨h0, hsize⟩
  have hread : m.access = .read := by
    rw [State.access, hm.exmem, hm.config, access_read_iff]
    exact kindOf_encode hwf
  have hword : m.memoryStage = ⟨encode (.lw hi rA rB off), Memory.read s.config.dmemFill s.dmem ea.toNat⟩ := by
    rw [memoryStage_of_read hread, State.memRead, ea_atMemory hm hwf (by simp [Instr.kind]), hm.exmem, hm.config, hm.dmem]
    rfl
  have hdest : destOf (m.advance noopWord).config (m.advance noopWord).memwb.instr = some rB.val := by
    rw [advance_memwb, hword, advance_config, hm.config, destOf, wordPath_encode hwf]
    rfl
  refine ⟨t, u, hexec, hsteps, ?_, ?_, himem, hconfig, ?_, hcycles, hwbend⟩
  · rw [hreg, nextReg_some hdest, advance_memwb, hword, advance_reg, nextReg_atMemory hm]
  · rw [hdmem, nextDmem_of_not_write (by simp [hread]), hm.dmem]
  · rw [hpc, pcAdvanceToMemory]
    simp only [Instr.kind, Instr.rB, true_and]
    split <;> rfl

/-- Settles O43: `access_completes`, the Memory stage storing the register Execute read (R113, 20_memory R64). -/
theorem swCompletes : Obligations.SwCompletes := by
  intro s hi rA rB off hwf hidle hn hcanonical ea h0 hsize
  obtain ⟨t, m, u, hexec, hsteps, hm, hreg, hdmem, himem, hconfig, hpc, hcycles, hwbend⟩ :=
    access_completes hwf hidle hn (by simp [Instr.kind]) ⟨h0, hsize⟩
  have hwrite : m.access = .write := by
    rw [State.access, hm.exmem, hm.config, access_write_iff]
    exact kindOf_encode hwf
  refine ⟨t, u, hexec, hsteps, fun a => ?_, ?_, himem, hconfig, ?_, hcycles, hwbend⟩
  · rw [hdmem, nextDmem_of_write hwrite, State.memWrite, ea_atMemory hm hwf (by simp [Instr.kind]), hm.exmem, hm.config,
      hm.dmem, mem_read_write hcanonical]
    rfl
  · have hdest : destOf (m.advance noopWord).config (m.advance noopWord).memwb.instr = none := by
      rw [advance_memwb, memoryStage_instr, hm.exmem, advance_config, hm.config, State.executed, destOf,
        wordPath_encode hwf]
      rfl
    rw [hreg, nextReg_none hdest, advance_reg, nextReg_atMemory hm]
  · rw [hpc, pcAdvanceToMemory, if_neg (by simp [Instr.kind])]
    rfl

/-- Settles O44: the range check is the only one of the Memory cycle that fails (R58; D16, log 14). -/
theorem loadAndStoreTrapOutOfRange : Obligations.LoadAndStoreTrapOutOfRange := by
  intro s i hi rA rB off hi_eq hwf hidle hn ea hout
  obtain ⟨hkind, hea⟩ : i.kind ∈ ([.LW, .SW] : List Kind) ∧ s.accessIndex i = ea := by
    rcases hi_eq with rfl | rfl <;> exact ⟨by simp [Instr.kind], rfl⟩
  obtain ⟨t, m, hexec, hsteps, hm⟩ := reaches_memory hwf hidle hn (by omega)
  obtain ⟨h2, h3⟩ := pcAdvanceToMemory_bounds s.config i
  refine ⟨t, m, hexec, hsteps, hm.reg, hm.dmem, ?_⟩
  rw [step_eq_settle (not_halted hm.toQuietFrom hm.latches (by simp)), stageFaults_atMemory hm hwf hkind, hea,
    State.dataFault, if_neg (mt (inRange_iff _ _).mp hout), (fetch_noop hn hm.toQuietFrom (by omega) (by omega)).2]
  rfl

end Sys2Proof.Machine

namespace Sys2Proof.Machine

/-! ## A BEQ passing down an idle pipeline (43_branch R170, R171) -/

section branch
variable {s v : State} {i : Instr}

/-- A BEQ that Execute made on the registers of `s` is taken if those it names are equal (R110, R112). -/
theorem branchTaken_of_executed (hwf : i.wellFormed s.config.highBits = true) (hbeq : i.kind = .BEQ)
    (hc : v.config = s.config) (hexmem : v.exmem = s.executed i) :
    v.branchTaken ↔ s.reg.read i.rA = s.reg.read i.rB := by
  have hkind : kindOf v.config.highBits v.exmem.instr = .BEQ := by
    rw [hexmem, hc]
    exact (kindOf_encode hwf).trans hbeq
  rw [State.branchTaken, and_iff_right hkind, hexmem]
  exact beq_iff_eq

/-- The Memory cycle of a BEQ with no stall beside it redirects `pc` to the address behind the branch plus the offset,
or lets it go on (R122, R171). -/
theorem nextPc_of_executed_beq (hwf : i.wellFormed s.config.highBits = true) (hbeq : i.kind = .BEQ)
    (hc : v.config = s.config) (hexmem : v.exmem = s.executed i) (hstall : v.stall = false) :
    v.nextPc = if s.reg.read i.rA = s.reg.read i.rB then s.pc + 1 + i.f16.toInt else v.pc + 1 := by
  have htaken := branchTaken_of_executed hwf hbeq hc hexmem
  split
  next heq =>
    rw [nextPc_taken (taken_iff.mpr (htaken.mpr heq)), hexmem, ← sext16_eq_toInt]
    rfl
  next hne => exact nextPc_normal (taken_eq_false_iff.mpr (mt htaken.mp hne)) hstall

end branch

/-- Settles O45: `passes_to_exmem` brings the BEQ to Memory, whose cycle changes `pc` alone (R112, R122). -/
theorem beqCompletes : Obligations.BeqCompletes := by
  intro s hi rA rB off hwf hidle hn
  obtain ⟨t, v, hexec, hsteps, u3, l3, hexmem⟩ := passes_to_exmem hwf hidle hn (by omega) (by simp [Instr.kind])
  have ⟨_, hidex, hinstr, hmemwb, _⟩ := l3
  have hbeq : kindOf v.config.highBits v.exmem.instr = .BEQ := by
    rw [hinstr, u3.config]
    exact kindOf_encode hwf
  have hf : v.stageFaults = [] := by simp [stageFaults_nil_iff, writesTo_iff_destOf, hmemwb, hbeq]
  have step3 := step_fetching_noop hn (by omega) (by omega) u3.toQuietFrom l3 (by simp) hf
  have hstall : v.stall = false := stall_eq_false_iff.mpr fun h => by simpa [hidex] using h.1
  have hpc : v.pc + 1 = s.pc + 4 := by rw [u3.pc]; push_cast; ring
  have hwrite : v.access ≠ .write := by simp [State.access, access_write_iff, hbeq]
  refine ⟨t, v.advance noopWord, hexec, ?_, ?_, (nextReg_of_noop hmemwb).trans u3.reg,
    (nextDmem_of_not_write hwrite).trans u3.dmem, u3.imem, u3.config, congrArg (· + 1) u3.cycles, hinstr⟩
  · rw [steps_add_of_next (n := 1) hsteps, steps_succ_next step3, steps]
  · rw [advance_pc, nextPc_of_executed_beq hwf rfl u3.config hexmem hstall, hpc]
    rfl

end Sys2Proof.Machine

namespace Sys2Proof.Machine

/-! ## HALT, NOOP and unrecognised words passing down an idle pipeline (44_halt_noop_unrecognised R180 to R182) -/

section effectless
variable {s u : State} {i : Instr}

/-- The whole passage of an instruction that writes no register, accesses no data memory and does not branch: it
stands in WB/END, and nothing but `pc` and the cycle count has changed. -/
theorem effectless_completes (hwf : i.wellFormed s.config.highBits = true) (hidle : s.Idle) (hn : s.noopsBehind 4)
    (hkind : i.kind ∈ ([.HALT, .NOOP, .UNREC] : List Kind)) :
    ∃ t u, exec i s = .next t ∧ steps 4 t = .next u ∧ s.UntouchedFrom 5 u ∧ u.wbend.instr = encode i := by
  obtain ⟨hquiet, hnowrite⟩ : i.kind ∉ ([.LW, .SW, .BEQ] : List Kind) ∧ i.kind ≠ .ADD ∧ i.kind ≠ .NOR ∧ i.kind ≠ .LW := by
    rcases (by simpa using hkind : i.kind = .HALT ∨ i.kind = .NOOP ∨ i.kind = .UNREC) with h | h | h <;> simp [h]
  have hdest : destOf s.config (encode i) = none := destOf_other _ _ (by rwa [kindOf_encode hwf])
  obtain ⟨t, v, hexec, hsteps, u4, l4, -⟩ := passes_to_memwb hwf hidle hn (by omega) hquiet
  obtain ⟨step4, u5, l5⟩ := untouched_step hn (by omega) le_rfl u4 l4 (by simp) (by simp) hdest (by simp)
  obtain ⟨-, -, -, -, hwbend⟩ := l5
  exact ⟨t, _, hexec, by rw [steps_add_of_next (n := 1) hsteps, steps_succ_next step4, steps], u5, hwbend⟩

/-- A HALT of any spelling in WB/END meets the halt test (R226). -/
theorem halted_of_wbend (hwf : i.wellFormed u.config.highBits = true) (hhalt : i.kind = .HALT)
    (hwbend : u.wbend.instr = encode i) : u.halted = true := by
  rw [State.halted, halts_iff, hwbend, kindOf_encode hwf, hhalt]

end effectless

/-- Settles O46: `effectless_completes`, and the HALT then in WB/END ends every run at once (R225, R226). -/
theorem haltCompletes : Obligations.HaltCompletes := by
  intro s hi rA rB f hwf hidle hn
  obtain ⟨t, u, hexec, hsteps, hu, hwbend⟩ := effectless_completes hwf hidle hn (by simp [Instr.kind])
  have hhalted : u.halted = true := halted_of_wbend (hu.config ▸ hwf) rfl hwbend
  exact ⟨t, u, hexec, hsteps, hwbend, fun _ => run_of_halted hhalted, hu.reg, hu.dmem, hu.imem, hu.config, hu.cycles⟩

/-- Settles O47: none of the three rows is of a kind with an effect (R181, R182; D7, D29), so `effectless_completes`. -/
theorem noopAndUnrecognisedWordsComplete : Obligations.NoopAndUnrecognisedWordsComplete := by
  intro s i hi_eq hwf hidle hn
  have hkind : i.kind ∈ ([.HALT, .NOOP, .UNREC] : List Kind) := by
    rcases hi_eq with ⟨_, _, _, _, rfl⟩ | ⟨_, _, _, _, rfl⟩ | ⟨_, _, _, _, _, rfl⟩ <;> simp [Instr.kind]
  obtain ⟨t, u, hexec, hsteps, hu, hwbend⟩ := effectless_completes hwf hidle hn hkind
  exact ⟨t, u, hexec, hsteps, hwbend, hu.reg, hu.dmem, hu.imem, hu.config, hu.pc, hu.cycles⟩

end Sys2Proof.Machine

namespace Sys2Proof.Machine

/-! ## The reasons of a fault, one check at a time (60_exceptions R204, R206) -/

section faults
variable {s : State} {f : Fault} {r : FaultReason} {ea : Int} {R : FaultReason → FaultReason → Prop}

/-- A step faults only in a state that is not final, and then with what the three checks raise (R125, R206). -/
theorem step_fault : step s = .fault f ↔ s.halted = false ∧ s.stageFaults ++ s.fetchFault = f.reasons := by
  cases hs : s.halted with
  | true => simp [step_halted hs]
  | false => simp [step_eq_settle hs, settle_fault]

/-- Any list with a reason in it is what some fault carries. -/
theorem exists_reasons_iff {l : List FaultReason} : (∃ f : Fault, l = f.reasons) ↔ ∃ r, r ∈ l := by
  cases l with
  | nil => exact iff_of_false (fun ⟨.raised _ _, h⟩ => nomatch h) (by simp)
  | cons r rs => exact iff_of_true ⟨.raised r rs, rfl⟩ ⟨r, List.mem_cons_self⟩

/-- Writeback raises the destination that names no register (R117). -/
theorem mem_writebackFault : r ∈ s.writebackFault ↔
    ∃ d, r = .destOutOfRange d ∧ writesTo s.config s.memwb.instr d ∧ 8 ≤ d := by
  simp only [State.writebackFault, writesTo_iff_destOf]
  cases destOf s.config s.memwb.instr with
  | none => simp
  | some d => by_cases hd : 8 ≤ d <;> simp [hd]

/-- The range check of data memory raises the index that is outside it (R58). -/
theorem mem_dataFault : r ∈ s.dataFault ea ↔
    r = .dataOutOfRange ea ∧ ¬ (0 ≤ ea ∧ ea < (s.config.dmemWords : Int)) := by
  rw [← inRange_iff, State.dataFault]
  cases inRange ea s.config.dmemWords <;> simp

/-- Memory checks the index of a word that accesses data memory (R58, R113). -/
theorem memoryFault_eq : s.memoryFault = if s.access ≠ .none then s.dataFault s.ea else [] := by
  unfold State.memoryFault
  cases s.access <;> rfl

/-- Memory raises the index of a LW or SW that is outside data memory (R58, R113). -/
theorem mem_memoryFault : r ∈ s.memoryFault ↔
    r = .dataOutOfRange (signed s.exmem.aluResult) ∧
      kindOf s.config.highBits s.exmem.instr ∈ ([.LW, .SW] : List Kind) ∧
      ¬ (0 ≤ signed s.exmem.aluResult ∧ signed s.exmem.aluResult < (s.config.dmemWords : Int)) := by
  rw [memoryFault_eq, List.mem_ite_nil_right, mem_dataFault, and_left_comm, State.access, access_ne_none_iff, State.ea]

/-- Fetch raises a `pc` outside instruction memory (R57). -/
theorem mem_fetchFault : r ∈ s.fetchFault ↔ r = .fetchOutOfRange s.pc ∧ ¬ s.pcInRange := by
  rw [State.pcInRange, ← inRange_iff, State.fetchFault]
  cases inRange s.pc s.config.imemWords <;> simp

/-- What the three checks raise together (R204). -/
theorem mem_faults : r ∈ s.stageFaults ++ s.fetchFault ↔
    r ∈ s.writebackFault ∨ r ∈ s.memoryFault ∨ r ∈ s.fetchFault := by
  rw [State.stageFaults, List.mem_append, List.mem_append, or_assoc]

/-! Each check raises at most one reason, so its own reasons stand in any order. -/

theorem pairwise_writebackFault : s.writebackFault.Pairwise R := by
  unfold State.writebackFault
  cases destOf s.config s.memwb.instr with
  | none => exact .nil
  | some d => by_cases hd : d < 8 <;> simp [hd]

theorem pairwise_memoryFault : s.memoryFault.Pairwise R := by
  rw [memoryFault_eq, State.dataFault]
  split_ifs <;> simp

theorem pairwise_fetchFault : s.fetchFault.Pairwise R := by
  unfold State.fetchFault
  split_ifs <;> simp

end faults

/-! ## The statements on faults and on the final state -/

/-- Settles O15: the three checks' reasons, each by its own membership lemma. -/
theorem faultsAreExactlyTheFailedChecks : Obligations.FaultsAreExactlyTheFailedChecks := by
  intro s failed
  have hfailed (r : FaultReason) : r ∈ s.stageFaults ++ s.fetchFault ↔ failed r := by
    rw [mem_faults, mem_writebackFault, mem_memoryFault, mem_fetchFault]
  constructor
  · simp only [step_fault, exists_and_left, exists_reasons_iff, hfailed]
  · intro f h r
    rw [← (step_fault.mp h).2, hfailed]

/-- Settles O16: the reasons stand as Writeback's, Memory's and Fetch's, at most one of each (R206). -/
theorem faultReasonsOldestFirst : Obligations.FaultReasonsOldestFirst := by
  intro s f h
  rw [← (step_fault.mp h).2, State.stageFaults, List.append_assoc, List.pairwise_append, List.pairwise_append]
  refine ⟨pairwise_writebackFault, ⟨pairwise_memoryFault, pairwise_fetchFault, fun r hr r' hr' => ?_⟩,
    fun r hr r' hr' => ?_⟩
  · exact .inr ⟨_, _, (mem_memoryFault.mp hr).1, (mem_fetchFault.mp hr').1⟩
  · obtain ⟨d, rfl, -⟩ := mem_writebackFault.mp hr
    refine .inl ⟨d, rfl, ?_⟩
    rcases List.mem_append.mp hr' with hm | hf
    · simp [(mem_memoryFault.mp hm).1]
    · simp [(mem_fetchFault.mp hf).1]

/-- Settles O17: a HALT in WB/END meets the halt test (R226), and a halted state steps to itself. -/
theorem haltedStateIsFinal : Obligations.HaltedStateIsFinal := fun _ n h =>
  steps_halted ((halts_iff _ _).mpr h) n

end Sys2Proof.Machine

namespace Sys2Proof.Machine

/-! ## Program load and the launch state (70_reset_and_hazards R220 to R223) -/

section load
variable {p : LaunchParams} {program : List Word} {s : State}

/-- A launch succeeds exactly where the program and the initial image fit, and then with the launch state. -/
theorem launch_eq_ok : launch p program = .ok s ↔
    program.length ≤ p.config.imemWords ∧ (p.dmemInit.getD program).length ≤ p.config.dmemWords ∧
      State.launched p.config p.regInit (Memory.ofWords p.config.imemFill 0 program)
        (Memory.ofWords p.config.dmemFill 0 (p.dmemInit.getD program)) = s := by
  rw [← not_lt, ← not_lt, launch]
  split
  next h => simp [h]
  next h => split <;> simp [*]

/-- The program's length is checked first (log 25). -/
theorem launch_eq_programTooLong : launch p program = .error .programTooLong ↔ p.config.imemWords < program.length := by
  rw [launch]
  split
  next h => simp [h]
  next h => split <;> simp [h]

/-- The image's length is checked where the program fits (log 25). -/
theorem launch_eq_dataImageTooLong : launch p program = .error .dataImageTooLong ↔
    ¬ p.config.imemWords < program.length ∧ p.config.dmemWords < (p.dmemInit.getD program).length := by
  rw [launch]
  split
  next h => simp [h]
  next h => split <;> simp [*]

/-- A list of words placed from index 0 on reads back as the list, and as the fill word behind it. -/
theorem read_ofWords_zero (fill : Word) (ws : List Word) (a : Nat) :
    Memory.read fill (Memory.ofWords fill 0 ws) a = ws.getD a fill := by
  simp [read_ofWords]

/-- Settles O6: the empty program fits, and its image is empty. -/
theorem resetIsTheEmptyLaunch : Obligations.ResetIsTheEmptyLaunch :=
  launch_eq_ok.mpr ⟨Nat.zero_le _, Nat.zero_le _, rfl⟩

/-- Settles O7: the launch state, each memory read back by `read_ofWords_zero`. -/
theorem launchFixesTheState : Obligations.LaunchFixesTheState := by
  intro p program s h
  obtain ⟨-, -, rfl⟩ := launch_eq_ok.mp h
  exact ⟨rfl, rfl, rfl, rfl, rfl, rfl, rfl, rfl, rfl, read_ofWords_zero _ _, read_ofWords_zero _ _⟩

/-- Settles O8: the three answers of `launch`. -/
theorem launchRefusesWhatDoesNotFit : Obligations.LaunchRefusesWhatDoesNotFit := by
  refine fun p program => ⟨launch_eq_programTooLong, launch_eq_dataImageTooLong, ?_⟩
  simp only [launch_eq_ok, exists_and_left, exists_eq', and_true]

/-- Settles O36: both images are canonical because they fit, and a NOOP in ID/EX asks for nothing more. -/
theorem launchMeetsTheInvariant : Obligations.LaunchMeetsTheInvariant := by
  intro p program s h
  obtain ⟨himem, hdmem, rfl⟩ := launch_eq_ok.mp h
  exact
    { imemCanonical := ofWords_wfFrom _ _ _ _ (by simpa using himem)
      dmemCanonical := ofWords_wfFrom _ _ _ _ (by simpa using hdmem)
      loadUseGap := fun hk => by simp at hk
      offsetOfWord := fun hk => by simp at hk
      operandsFresh := fun hk => by simp at hk }

/-- Settles O52: the halt column of the kind table; at a launch WB/END holds the NOOP word. -/
theorem haltTestReadsWbEnd : Obligations.HaltTestReadsWbEnd := by
  refine ⟨fun s => halts_iff _ _, fun p program s h => ?_⟩
  obtain ⟨-, -, rfl⟩ := launch_eq_ok.mp h
  simp [State.halted, noopPath]

end load

/-! ## Program text (R221, R222) -/

section text
variable {ch : Char} {n : Nat}

/-- A character between two others stands as far behind the first as its number says. -/
theorem exists_ofNat_of_between {lo hi : Char} (h : lo ≤ ch ∧ ch ≤ hi) :
    ∃ k ≤ hi.toNat - lo.toNat, ch = Char.ofNat (lo.toNat + k) ∧ ch.toNat - lo.toNat = k := by
  obtain ⟨hlo, hhi⟩ : lo.toNat ≤ ch.toNat ∧ ch.toNat ≤ hi.toNat := h
  exact ⟨ch.toNat - lo.toNat, by omega, by rw [Nat.add_sub_cancel' hlo, Char.ofNat_toNat], rfl⟩

/-- A digit lies in one of the three ranges, whose characters stand in order among the sixteen. -/
theorem digit_of_hexDigit (h : hexDigit ch = some n) :
    "0123456789abcdef".toList[n]? = some ch ∨ "0123456789ABCDEF".toList[n]? = some ch := by
  have hdecimal : ∀ k ≤ 9, "0123456789abcdef".toList[k]? = some (Char.ofNat ('0'.toNat + k)) := by decide
  have hlower : ∀ k ≤ 5, "0123456789abcdef".toList[k + 10]? = some (Char.ofNat ('a'.toNat + k)) := by decide
  have hupper : ∀ k ≤ 5, "0123456789ABCDEF".toList[k + 10]? = some (Char.ofNat ('A'.toNat + k)) := by decide
  unfold hexDigit at h
  split_ifs at h with hch hch hch <;> obtain rfl := Option.some.inj h <;>
    obtain ⟨k, hk, heq, hval⟩ := exists_ofNat_of_between hch <;> rw [hval]
  · exact .inl ((hdecimal k hk).trans (congrArg some heq.symm))
  · exact .inl ((hlower k hk).trans (congrArg some heq.symm))
  · exact .inr ((hupper k hk).trans (congrArg some heq.symm))

/-- A list of sixteen characters with the values 0 to 15, in order, has at each place a digit of that value. -/
theorem hexDigit_of_getElem? {digits : List Char} (hvalues : digits.map hexDigit = (List.range 16).map some)
    (h : digits[n]? = some ch) : hexDigit ch = some n := by
  have hn : (digits.map hexDigit)[n]? = ((List.range 16).map some)[n]? := by rw [hvalues]
  rw [List.getElem?_map, List.getElem?_map, h, Option.map_some, eq_comm, Option.map_eq_some_iff] at hn
  obtain ⟨k, hk, hch⟩ := hn
  obtain ⟨hlt, hk⟩ := List.getElem?_eq_some_iff.mp hk
  rw [← hch, ← hk, List.getElem_range]

theorem hexDigit_eq_some_iff : hexDigit ch = some n ↔
    "0123456789abcdef".toList[n]? = some ch ∨ "0123456789ABCDEF".toList[n]? = some ch :=
  ⟨digit_of_hexDigit, Or.rec (hexDigit_of_getElem? (by decide)) (hexDigit_of_getElem? (by decide))⟩

/-- A character that is no digit spoils the line. -/
theorem hexValue_eq_none {line : List Char} (h : ∃ ch ∈ line, hexDigit ch = none) (acc : Nat) :
    hexValue acc line = none := by
  induction line generalizing acc with
  | nil => simp at h
  | cons ch rest ih =>
    cases hd : hexDigit ch with
    | none => simp [hexValue, hd]
    | some d => simpa [hexValue, hd] using ih (by simpa [hd] using h) _

/-- The digits behind a value already read, the first one the most significant (20_memory R53, D23). -/
theorem hexValue_eq_some {line : List Char} {ds : List Nat} (h : line.map hexDigit = ds.map some) (acc : Nat) :
    hexValue acc line = some (Nat.ofDigits 16 ds.reverse + 16 ^ ds.length * acc) := by
  induction line generalizing acc ds with
  | nil =>
    obtain rfl : ds = [] := by simpa using h.symm
    simp [hexValue]
  | cons ch rest ih =>
    cases ds with
    | nil => simp at h
    | cons d ds =>
      obtain ⟨hd, hrest⟩ := List.cons_eq_cons.mp h
      simp only [hexValue, hd, ih hrest, List.reverse_cons, Nat.ofDigits_append, Nat.ofDigits_singleton,
        List.length_reverse, List.length_cons, pow_succ]
      congr 1
      ring

theorem parseLine_of_ne_nil {line : List Char} (h : line ≠ []) : parseLine line =
    match hexValue 0 line with
    | none => .error .notHexadecimal
    | some n => if n < 2 ^ 32 then .ok (BitVec.ofNat 32 n) else .error .lineTooWide := by
  cases line with
  | nil => exact absurd rfl h
  | cons => rfl

/-- Settles O9: the table of digits, and the value of a line by `hexValue_eq_none` and `hexValue_eq_some`. -/
theorem linesAreHexadecimalWords : Obligations.LinesAreHexadecimalWords := by
  refine ⟨fun _ _ => hexDigit_eq_some_iff, rfl, fun line h => ?_, fun line ds hne h => ?_⟩
  · obtain ⟨ch, hch, -⟩ := id h
    rw [parseLine_of_ne_nil (List.ne_nil_of_mem hch), hexValue_eq_none h]
  · rw [parseLine_of_ne_nil hne, hexValue_eq_some h, mul_zero, add_zero]

theorem parseLines_eq_ok {lines : List (List Char)} {ws : List Word}
    (h : List.Forall₂ (fun line w => parseLine line = .ok w) lines ws) : parseLines lines = .ok ws := by
  induction h with
  | nil => rfl
  | cons hline _ ih => simp [parseLines, hline, ih]

/-- The first line that does not load is the one reported (log 25). -/
theorem parseLines_eq_error {good rest : List (List Char)} {bad : List Char} {e : LoadError}
    (hgood : ∀ line ∈ good, ∃ w, parseLine line = .ok w) (hbad : parseLine bad = .error e) :
    parseLines (good ++ bad :: rest) = .error e := by
  induction good with
  | nil => simp [parseLines, hbad]
  | cons line good ih =>
    obtain ⟨⟨w, hw⟩, hgood⟩ := List.forall_mem_cons.mp hgood
    simp [parseLines, hw, ih hgood]

/-- Settles O53: the words of the text, or its first failure. -/
theorem programTextLoads : Obligations.ProgramTextLoads := by
  refine fun p lines => ⟨fun ws h => ?_, ?_⟩
  · rw [load, parseLines_eq_ok h]
  · rintro good bad rest e rfl hgood hbad
    rw [load, parseLines_eq_error hgood hbad]

end text

/-! ## The run loop and what it reports (R225 to R229, R232, R234) -/

section runLoop
variable {s P : State} {n k : Nat}

theorem halted_eq_false_iff : s.halted = false ↔ kindOf s.config.highBits s.wbend.instr ≠ .HALT := by
  rw [← Bool.not_eq_true, State.halted, halts_iff]

/-- One state more without a retired HALT. -/
theorem noHaltBefore_succ_iff (h : steps k s = .next P) :
    s.noHaltBefore (k + 1) ↔ s.noHaltBefore k ∧ P.halted = false := by
  rw [halted_eq_false_iff]
  constructor
  · exact fun hno => ⟨fun j u hj => hno j u (by omega), hno k P (by omega) h⟩
  · rintro ⟨hno, hP⟩ j u hj hu
    rcases Nat.lt_succ_iff_lt_or_eq.mp hj with hj | rfl
    · exact hno j u hj hu
    · rw [h] at hu
      cases hu
      exact hP

/-- While no HALT retires, the run goes on from the state it has reached. -/
theorem run_add (h : steps k s = .next P) (hno : s.noHaltBefore k) : run (k + n) s = run n P := by
  induction k generalizing s with
  | zero => cases h; rw [Nat.zero_add]
  | succ k ih =>
    cases hstep : step s with
    | next s' =>
      rw [steps_succ_next hstep] at h
      obtain ⟨hs, hno⟩ := (noHaltBefore_succ hstep).mp hno
      rw [Nat.succ_add, run_succ_of_next (halted_eq_false_iff.mpr hs) hstep, ih h hno]
    | fault f => rw [steps_succ_fault hstep] at h; cases h
    | refused r => exact absurd hstep (step_not_refused s r)

/-- How a run that has reached `P`, with `m` cycles left, ends there. -/
def RunEndsAt (P : State) (m : Nat) (result : RunResult) : Prop :=
  (P.halted = true ∧ result = .halted P) ∨
  (P.halted = false ∧ 0 < m ∧ ∃ f, step P = .fault f ∧ result = .faulted P f) ∨
  (P.halted = false ∧ m = 0 ∧ result = .noHalt P)

/-- Every run ends in one of the three ways, after as many steps as it has taken cycles. -/
theorem run_cases (n : Nat) (s : State) :
    ∃ k P, k ≤ n ∧ steps k s = .next P ∧ s.noHaltBefore k ∧ RunEndsAt P (n - k) (run n s) := by
  induction n generalizing s with
  | zero =>
    refine ⟨0, s, le_rfl, rfl, noHaltBefore_zero s, ?_⟩
    cases hs : s.halted with
    | true => exact .inl ⟨hs, run_of_halted hs⟩
    | false => exact .inr (.inr ⟨hs, rfl, run_zero_of_not_halted hs⟩)
  | succ n ih =>
    cases hs : s.halted with
    | true => exact ⟨0, s, Nat.zero_le _, rfl, noHaltBefore_zero s, .inl ⟨hs, run_of_halted hs⟩⟩
    | false =>
      cases hstep : step s with
      | next s' =>
        obtain ⟨k, P, hk, hP, hno, hend⟩ := ih s'
        refine ⟨k + 1, P, by omega, (steps_succ_next hstep).trans hP,
          (noHaltBefore_succ hstep).mpr ⟨halted_eq_false_iff.mp hs, hno⟩, ?_⟩
        rwa [run_succ_of_next hs hstep, Nat.add_sub_add_right]
      | fault f =>
        exact ⟨0, s, Nat.zero_le _, rfl, noHaltBefore_zero s,
          .inr (.inl ⟨hs, by omega, f, hstep, run_succ_of_fault hs hstep⟩)⟩
      | refused r => exact absurd hstep (step_not_refused s r)

/-- Settles O18: each answer from `run_cases`, and back by running on to the state it names. -/
theorem runStopsAtTheFirstRetiredHalt : Obligations.RunStopsAtTheFirstRetiredHalt := by
  intro n s
  obtain ⟨k, Q, hk, hQ, hno, hend⟩ := run_cases n s
  refine ⟨fun P => ⟨fun h => ?_, ?_⟩, fun P f => ⟨fun h => ?_, ?_⟩, fun P => ⟨fun h => ?_, ?_⟩⟩
  · rcases hend with ⟨hhalt, hrun⟩ | ⟨-, -, f, -, hrun⟩ | ⟨-, -, hrun⟩ <;> rw [h] at hrun <;> cases hrun
    exact ⟨k, hk, hQ, hno, (halts_iff _ _).mp hhalt⟩
  · rintro ⟨j, hj, hP, hno, hhalt⟩
    obtain ⟨m, rfl⟩ := Nat.exists_eq_add_of_le hj
    rw [run_add hP hno, run_of_halted ((halts_iff _ _).mpr hhalt)]
  · rcases hend with ⟨-, hrun⟩ | ⟨hlive, hm, f, hfault, hrun⟩ | ⟨-, -, hrun⟩ <;> rw [h] at hrun <;> cases hrun
    exact ⟨k, by omega, hQ, (noHaltBefore_succ_iff hQ).mpr ⟨hno, hlive⟩, hfault⟩
  · rintro ⟨j, hj, hP, hno, hfault⟩
    obtain ⟨hno, hlive⟩ := (noHaltBefore_succ_iff hP).mp hno
    obtain ⟨m, rfl⟩ := Nat.exists_eq_add_of_lt hj
    rw [Nat.add_assoc, run_add hP hno, run_succ_of_fault hlive hfault]
  · rcases hend with ⟨-, hrun⟩ | ⟨-, -, f, -, hrun⟩ | ⟨hlive, hm, hrun⟩ <;> rw [h] at hrun <;> cases hrun
    obtain rfl : k = n := by omega
    exact ⟨hQ, (noHaltBefore_succ_iff hQ).mpr ⟨hno, hlive⟩⟩
  · rintro ⟨hP, hno⟩
    obtain ⟨hno, hlive⟩ := (noHaltBefore_succ_iff hP).mp hno
    exact (run_add (n := 0) hP hno).trans (run_zero_of_not_halted hlive)

/-- A run that halts behind a state that is not final has taken a step from it. -/
theorem run_eq_halted_of_not_halted (hs : s.halted = false) (h : run n s = .halted P) :
    ∃ m s', n = m + 1 ∧ step s = .next s' ∧ run m s' = .halted P := by
  cases n with
  | zero => rw [run_zero_of_not_halted hs] at h; cases h
  | succ m =>
    cases hstep : step s with
    | next s' => exact ⟨m, s', rfl, rfl, by rwa [run_succ_of_next hs hstep] at h⟩
    | fault f => rw [run_succ_of_fault hs hstep] at h; cases h
    | refused r => exact absurd hstep (step_not_refused s r)

/-- The trace of a final state is its row alone (R234, D28). -/
theorem trace_of_halted (h : s.halted = true) : trace n s = [s.observe] := by
  cases n <;> simp [trace, h]

theorem trace_succ_of_next {s' : State} (h : s.halted = false) (hs : step s = .next s') :
    trace (n + 1) s = s.observe :: trace n s' := by
  simp [trace, h, hs]

/-- What O19 says of a run that halts, for a final state. -/
theorem trace_rows_of_halted (hs : s.halted = true) (h : run n s = .halted P) :
    (trace n s).getLast? = some P.observe ∧ s.cycles + (trace n s).length = P.cycles + 1 ∧
      ∀ (k : Nat) (o : Observation), (trace n s)[k]? = some o →
        o.cycles = s.cycles + k ∧ ∃ u, steps k s = .next u ∧ o = u.observe := by
  rw [run_of_halted hs] at h
  cases h
  rw [trace_of_halted hs]
  refine ⟨rfl, rfl, fun k o ho => ?_⟩
  cases k with
  | zero => cases ho; exact ⟨rfl, s, rfl, rfl⟩
  | succ k => cases ho

/-- Settles O19, by induction on the bound: a row in front of the trace of the rest of the run. -/
theorem traceShowsEveryState : Obligations.TraceShowsEveryState := by
  intro n s P h
  induction n generalizing s P with
  | zero =>
    cases hs : s.halted with
    | true => exact trace_rows_of_halted hs h
    | false => rw [run_zero_of_not_halted hs] at h; cases h
  | succ n ih =>
    cases hs : s.halted with
    | true => exact trace_rows_of_halted hs h
    | false =>
      obtain ⟨m, s', hm, hstep, hrun⟩ := run_eq_halted_of_not_halted hs h
      obtain rfl := Nat.succ.inj hm
      obtain ⟨hlast, hlength, hrows⟩ := ih s' P hrun
      obtain ⟨hcycles, -⟩ := everyCycleCounts.2 s s' hs hstep
      rw [trace_succ_of_next hs hstep]
      refine ⟨?_, ?_, fun k o ho => ?_⟩
      · rw [List.getLast?_cons, hlast, Option.getD_some]
      · rw [List.length_cons]; omega
      · cases k with
        | zero => cases ho; exact ⟨rfl, s, rfl, rfl⟩
        | succ k =>
          obtain ⟨hcount, u, hu, rfl⟩ := hrows k o ho
          exact ⟨by omega, u, (steps_succ_next hstep).trans hu, rfl⟩

/-- Settles O55: the report has a row for each answer of the run. -/
theorem reportFollowsTheRun : Obligations.ReportFollowsTheRun := by
  intro n s P
  refine ⟨fun h => ?_, fun f h => ?_, fun h => ?_⟩ <;> rw [h, RunResult.report]

end runLoop

end Sys2Proof.Machine

namespace Sys2Proof.Machine

/-! ## A step of the sequential reference, kind by kind (R230) -/

section reference
variable {c : Config} {imem : Memory} {t t' : RefState} {w : Word} {n : Nat} {r : RefRun}

/-- A word of a recognised kind is the row of that kind's opcode, on the word's own fields (R75). -/
theorem decode_of_kindOf {p : HighBitsPolicy} (op : BitVec 3) (hop : opcodeKinds[op.toFin] ≠ .UNREC)
    (h : kindOf p w = opcodeKinds[op.toFin]) :
    decode p w = decodeOp op (fieldHi w) (fieldA w) (fieldB w) (field16 w) := by
  rcases decode_cases p w with hp | ⟨rfl, hhi⟩
  · rw [decode_of_op hp, (fieldOp_eq_iff_kindOf hp op).mpr h]
  · exact absurd (h.symm.trans (kindOf_of_high hhi)) hop

/-- The sequential effect of ADD on the word's own fields (R150). -/
theorem seqExec_add (h : kindOf c.highBits w = .ADD) : seqExec c (decode c.highBits w) t =
    t.writeReg (namedDestination c w) (t.reg.read (fieldA w) + t.reg.read (fieldB w)) := by
  rw [decode_of_kindOf 0 (by decide) h, ← arithDest_field16]
  rfl

/-- The sequential effect of NOR (R151). -/
theorem seqExec_nor (h : kindOf c.highBits w = .NOR) : seqExec c (decode c.highBits w) t =
    t.writeReg (namedDestination c w) (~~~(t.reg.read (fieldA w) ||| t.reg.read (fieldB w))) := by
  rw [decode_of_kindOf 1 (by decide) h, ← arithDest_field16]
  rfl

/-- The sequential effect of LW (R160). -/
theorem seqExec_lw (h : kindOf c.highBits w = .LW) : seqExec c (decode c.highBits w) t =
    seqLw c (fieldA w) (fieldB w) (field16 w) t := by
  rw [decode_of_kindOf 2 (by decide) h]
  rfl

/-- The sequential effect of SW (R161). -/
theorem seqExec_sw (h : kindOf c.highBits w = .SW) : seqExec c (decode c.highBits w) t =
    seqSw c (fieldA w) (fieldB w) (field16 w) t := by
  rw [decode_of_kindOf 3 (by decide) h]
  rfl

/-- The sequential effect of BEQ (R170). -/
theorem seqExec_beq (h : kindOf c.highBits w = .BEQ) : seqExec c (decode c.highBits w) t =
    seqBeq (fieldA w) (fieldB w) (field16 w) t := by
  rw [decode_of_kindOf 4 (by decide) h]
  rfl

/-- A HALT stops the reference (R180). -/
theorem seqExec_halt (h : kindOf c.highBits w = .HALT) : seqExec c (decode c.highBits w) t = .stop t := by
  rw [decode_of_kindOf 6 (by decide) h]
  rfl

/-- A NOOP or an unrecognised word has no effect (R181, R182). -/
theorem seqExec_effectless (h : kindOf c.highBits w ∈ ([.NOOP, .UNREC] : List Kind)) :
    seqExec c (decode c.highBits w) t = .next ⟨t.reg, t.pc + 1, t.dmem⟩ := by
  unfold kindOf at h
  cases hd : decode c.highBits w <;> simp [hd, Instr.kind] at h <;> rfl

/-- Inside instruction memory a step is the sequential effect of the word at `pc`. -/
theorem seqStep_of_inRange (h : inRange t.pc c.imemWords = true) :
    seqStep c imem t = seqExec c (decode c.highBits (fetchWord c imem t.pc)) t := by
  rw [seqStep, if_pos h]

/-- Settles O56: the sequential effect of each kind, in the words of its rule. -/
theorem referenceStepFollowsTheRules : Obligations.ReferenceStepFollowsTheRules := by
  intro c imem t
  refine ⟨fun h => ?_, fun h0 hsize => ?_⟩
  · rw [seqStep, if_neg (mt (inRange_iff _ _).mp h)]
  · intro w kind a b off ea d
    have hstep : seqStep c imem t = seqExec c (decode c.highBits w) t :=
      seqStep_of_inRange ((inRange_iff _ _).mpr ⟨h0, hsize⟩)
    have hea : t.ea (fieldA w) (field16 w) = ea := by
      rw [RefState.ea, sext16_eq_toInt]
      rfl
    rw [hstep]
    refine ⟨seqExec_halt, seqExec_add, seqExec_nor, fun hk => ?_, fun hk => ?_, fun hk => ?_, seqExec_effectless⟩
    · simp only [seqExec_lw hk, seqLw, hea, inRange_iff]
    · simp only [seqExec_sw hk, seqSw, hea, inRange_iff]
      rfl
    · simp only [seqExec_beq hk, seqBeq, equalityFlag, beq_iff_eq, branchTargetOf, sext16_eq_toInt]
      split <;> rfl

/-! ## A run of the reference and its counts (R231, R233) -/

theorem seqRun_succ_of_next (h : seqStep c imem r.state = .next t) :
    seqRun c imem (n + 1) r = seqRun c imem n (r.after c imem t) := by
  rw [seqRun, h]

theorem seqRun_succ_of_stop (h : seqStep c imem r.state = .stop t) : seqRun c imem (n + 1) r = .stopped r := by
  rw [seqRun, h]

/-- The stalls of R233 are the load-use pairs. -/
theorem costsStall_iff {next : Word} : costsStall c w next = true ↔ loadUsePair c w next := by
  simp only [costsStall, loadUsePair, Bool.and_eq_true, beq_iff_eq, stallChecks_iff]

/-- The taken branches of R233. -/
theorem costsSquash_iff : costsSquash c w t = true ↔
    kindOf c.highBits w = .BEQ ∧ t.reg.read (fieldA w) = t.reg.read (fieldB w) := by
  simp only [costsSquash, equalityFlag, Bool.and_eq_true, beq_iff_eq]

/-- Settles O57: each count goes up by what its test says. -/
theorem referenceRunCounts : Obligations.ReferenceRunCounts := by
  intro c imem n r t
  refine ⟨rfl, seqRun_succ_of_stop, fun reason h => by rw [seqRun, h], fun h => ?_⟩
  intro w stalled branched
  refine ⟨_, _, seqRun_succ_of_next h, fun hs => ?_, fun hs => ?_, fun hb => ?_, fun hb => ?_⟩
  · exact congrArg _ (if_pos (costsStall_iff.mpr hs))
  · exact congrArg _ (if_neg (mt costsStall_iff.mp hs))
  · exact congrArg _ (if_pos (costsSquash_iff.mpr hb))
  · exact congrArg _ (if_neg (mt costsSquash_iff.mp hb))

end reference

end Sys2Proof.Machine

namespace Sys2Proof.Machine

/-! ## The pipeline and the reference side by side (R231, R233)

The reference stands before the word in EX/MEM: the words behind it are those at the addresses from the
reference's `pc` on (`State.Window`), Execute has computed that word's results on the reference's registers
(`State.Executing`), and the cycles so far are the cost of what the reference has executed plus those that the
window has taken to fill (`State.Tracks`). Every cycle keeps this, the reference taking the step
of the word in EX/MEM, until that word is a HALT; two more cycles take the HALT to WB/END. -/

section correspondence
variable {s : State} {t : RefState} {a : Int} {w : Word}

/-- What Execute makes of the word `w` at `t.pc` on the registers of `t` (R110, R111). -/
def RefState.executed (c : Config) (w : Word) (t : RefState) : ExMem where
  instr := w
  branchTarget := branchTargetOf (t.pc + 1) (sext16 (field16 w))
  eq := equalityFlag (t.reg.read (fieldA w)) (t.reg.read (fieldB w))
  aluResult := (wordPath c w).alu (t.reg.read (fieldA w)) (t.reg.read (fieldB w)) (sext16 (field16 w))
  storeData := t.reg.read (fieldB w)

/-- The word at address `a` and the address behind it were fetched into a latch (R102). -/
structure State.HoldsAt (s : State) (a : Int) (w : Word) (pcPlus1 : Int) : Prop where
  inRange : inRange a s.config.imemWords = true
  word : w = s.ifetch a
  next : pcPlus1 = a + 1

/-- How many of the words from address `a` on stand behind EX/MEM, in IF/ID and ID/EX: none, one in IF/ID, or
two; `pc` is the address behind them. -/
inductive State.Behind (s : State) (a : Int) : Nat → Prop
  | none (hidex : s.idex.instr = noopWord) (hifid : s.ifid.instr = noopWord) (hpc : s.pc = a) : Behind s a 0
  | one (hidex : s.idex.instr = noopWord) (hifid : s.HoldsAt a s.ifid.instr s.ifid.pcPlus1) (hpc : s.pc = a + 1) :
    Behind s a 1
  | two (hidex : s.HoldsAt a s.idex.instr s.idex.pcPlus1) (hifid : s.HoldsAt (a + 1) s.ifid.instr s.ifid.pcPlus1)
    (hpc : s.pc = a + 1 + 1) : Behind s a 2

/-- EX/MEM holds the word at `t.pc` with what Execute makes of it on the registers of `t`, where meaningful (R36). -/
structure State.Executing (s : State) (t : RefState) : Prop where
  inRange : inRange t.pc s.config.imemWords = true
  word : s.exmem.instr = s.ifetch t.pc
  alike : s.exmem.Alike s.config.highBits (t.executed s.config s.exmem.instr)

/-- The number of words behind the one at address `a` when it stands in EX/MEM: one fewer if it stalled the next. -/
def State.behindCount (s : State) (a : Int) : Nat :=
  if costsStall s.config (s.ifetch a) (s.ifetch (a + 1)) then 1 else 2

/-- The window of the pipeline on the words from `t.pc` on, and the cycles it has taken to fill: a bubble in EX/MEM
and the first words behind it, or the word at `t.pc` in EX/MEM and the next ones behind it. -/
inductive State.Window (s : State) (t : RefState) : Nat → Prop
  | filling {n : Nat} (hexmem : s.exmem.instr = noopWord) (hbehind : s.Behind t.pc n) : Window s t n
  | executing (hexmem : s.Executing t) (hbehind : s.Behind (t.pc + 1) (s.behindCount t.pc)) : Window s t 3

/-! ### Fetch, Decode and Execute -/

/-- Execute works on the registers that the older words will leave (R131), so what it computes is what the word
computes in program order. -/
theorem executeStage_alike_executed (hinv : s.Inv) (hreg : t.reg = s.regAfterOlder) (hpc : s.idex.pcPlus1 = t.pc + 1) :
    s.executeStage.Alike s.config.highBits (t.executed s.config s.idex.instr) := by
  obtain ⟨hA, hB⟩ := operandsAreTheSequentialValues s hinv
  rw [← hreg] at hA hB
  have hoff (hk : readsOffset (kindOf s.config.highBits s.idex.instr) = true) :
      s.idex.offset = sext16 (field16 s.idex.instr) :=
    hinv.offsetOfWord fun hnoop => by rw [hnoop] at hk; cases hk
  exact
    { instr := rfl
      branchTarget := fun hk => by
        rw [State.executeStage, hpc, hoff (congrArg readsOffset hk)]
        rfl
      eq := fun hk => by
        rw [State.executeStage, hA (congrArg readsA hk), hB (congrArg readsB hk)]
        rfl
      aluResult := fun _ => alu_congr hA hB hoff
      storeData := fun hk => hB (congrArg readsB hk) }

/-- A bubble in ID/EX stalls nothing (R105). -/
theorem stall_of_noop (h : s.idex.instr = noopWord) : s.stall = false := by
  simp [State.stall, h]

/-- While the window fills, a cycle moves the word in IF/ID, if there is one, to ID/EX and fetches the next one behind
it; a bubble enters EX/MEM. -/
theorem behind_advance_filling {n : Nat} (hbehind : s.Behind a n) (hn : n < 2)
    (hfetch : inRange s.pc s.config.imemWords = true) (ht : s.taken = false) :
    (s.advance (s.ifetch s.pc)).exmem.instr = noopWord ∧ (s.advance (s.ifetch s.pc)).Behind a (n + 1) := by
  have hexmem : (s.advance (s.ifetch s.pc)).exmem.instr = s.idex.instr := congrArg ExMem.instr (nextExmem_normal ht)
  cases hbehind with
  | none hidex hifid hpc =>
    have hs := stall_of_noop hidex
    subst hpc
    refine ⟨hexmem.trans hidex, .one ?_ ?_ (nextPc_normal ht hs)⟩
    · exact (congrArg IdEx.instr (nextIdex_normal ht hs)).trans hifid
    · rw [advance_ifid, nextIfid_normal ht hs]
      exact ⟨hfetch, rfl, rfl⟩
  | one hidex hifid hpc =>
    have hs := stall_of_noop hidex
    rw [hpc] at hfetch
    refine ⟨hexmem.trans hidex, .two ?_ ?_ ((nextPc_normal ht hs).trans (congrArg (· + 1) hpc))⟩
    · rw [advance_idex, nextIdex_normal ht hs]
      exact ⟨hifid.inRange, hifid.word, hifid.next⟩
    · rw [advance_ifid, nextIfid_normal ht hs, hpc]
      exact ⟨hfetch, rfl, rfl⟩
  | two => omega

/-- With two words behind EX/MEM and no branch, the first moves into EX/MEM; if it stalls the second, that one stays
alone in IF/ID, and otherwise the next one is fetched behind it. -/
theorem behind_advance_full (hbehind : s.Behind a 2) (hfetch : inRange s.pc s.config.imemWords = true)
    (ht : s.taken = false) : (s.advance (s.ifetch s.pc)).Behind (a + 1) (s.behindCount a) := by
  cases hbehind with
  | two hidex hifid hpc =>
  have hstall : s.stall = costsStall s.config (s.ifetch a) (s.ifetch (a + 1)) := by
    rw [← hidex.word, ← hifid.word]
    rfl
  rw [State.behindCount, ← hstall]
  cases hs : s.stall with
  | true =>
    refine .one (congrArg IdEx.instr (nextIdex_bubble (.inr hs))) ?_ ((nextPc_stall ht hs).trans hpc)
    rw [advance_ifid, nextIfid_stall ht hs]
    exact ⟨hifid.inRange, hifid.word, hifid.next⟩
  | false =>
    rw [hpc] at hfetch
    refine .two ?_ ?_ ((nextPc_normal ht hs).trans (congrArg (· + 1) hpc))
    · rw [advance_idex, nextIdex_normal ht hs]
      exact ⟨hifid.inRange, hifid.word, hifid.next⟩
    · rw [advance_ifid, nextIfid_normal ht hs, hpc]
      exact ⟨hfetch, rfl, rfl⟩

/-- The word that moves into EX/MEM was executed on the registers that the older words leave. -/
theorem executing_advance (hinv : s.Inv) (hreg : t.reg = s.regAfterOlder)
    (hidex : s.HoldsAt t.pc s.idex.instr s.idex.pcPlus1) (ht : s.taken = false) : (s.advance w).Executing t := by
  have hexmem : (s.advance w).exmem = s.executeStage := nextExmem_normal ht
  refine ⟨hidex.inRange, ?_, ?_⟩ <;> rw [hexmem]
  · exact hidex.word
  · exact executeStage_alike_executed hinv hreg hidex.next

/-- A cycle without a branch: the window fills by one word, up to the one that has been executed. -/
theorem window_advance {n : Nat} (hinv : s.Inv) (hreg : t.reg = s.regAfterOlder) (hbehind : s.Behind t.pc n)
    (hfetch : inRange s.pc s.config.imemWords = true) (ht : s.taken = false) :
    (s.advance (s.ifetch s.pc)).Window t (n + 1) := by
  by_cases hn : n < 2
  · obtain ⟨hexmem, hbehind'⟩ := behind_advance_filling hbehind hn hfetch ht
    exact .filling hexmem hbehind'
  · cases hbehind with
    | none | one => omega
    | two hidex hifid hpc =>
      exact .executing (executing_advance hinv hreg hidex ht) (behind_advance_full (.two hidex hifid hpc) hfetch ht)

/-- A taken branch empties the window (R121). -/
theorem window_advance_taken (ht : s.taken = true) (hpc : t.pc = s.exmem.branchTarget) :
    (s.advance w).Window t 0 :=
  .filling (congrArg ExMem.instr (nextExmem_taken ht))
    (.none (congrArg IdEx.instr (nextIdex_bubble (.inl ht))) (nextIfid_taken ht) ((nextPc_taken ht).trans hpc.symm))

/-! ### Memory and Writeback of the word that the reference executes -/

theorem regAfterOlder_none (h : destOf s.config s.exmem.instr = none) : s.regAfterOlder = s.nextReg := by
  simp [State.regAfterOlder, h]

theorem regAfterOlder_some {d : Nat} (h : destOf s.config s.exmem.instr = some d) :
    s.regAfterOlder = s.nextReg.write d s.memoryStage.writeData := by
  simp [State.regAfterOlder, h]

/-- The reference state once the word in EX/MEM, which stood at `t.pc`, has been through Memory and Writeback. -/
def State.afterMemory (s : State) (t : RefState) : RefState where
  reg := s.regAfterOlder
  pc := if s.taken then s.exmem.branchTarget else t.pc + 1
  dmem := s.nextDmem

theorem afterMemory_pc_of_not_taken (ht : s.taken = false) : (s.afterMemory t).pc = t.pc + 1 := by
  simp [State.afterMemory, ht]

/-- The words that redirect nothing and store nothing. -/
theorem afterMemory_eq (hdmem : t.dmem = s.dmem)
    (hk : kindOf s.config.highBits s.exmem.instr ∉ ([.BEQ, .SW] : List Kind)) :
    s.afterMemory t = ⟨s.regAfterOlder, t.pc + 1, t.dmem⟩ := by
  simp only [List.mem_cons, List.not_mem_nil, or_false, not_or] at hk
  have ht : s.taken = false := taken_eq_false_iff.mpr fun h => hk.1 h.1
  have hw : s.access ≠ .write := mt (access_write_iff _ _).mp hk.2
  simp [State.afterMemory, ht, nextDmem_of_not_write hw, hdmem]

/-- Data memory `dmem` after the word at address `a`, on the registers `reg`: changed if that is a SW (R113, R161). -/
def dmemAfterStoreAt (c : Config) (imem : Memory) (reg : Regs) (dmem : Memory) (a : Int) : Memory :=
  let w := fetchWord c imem a
  if kindOf c.highBits w = .SW then
    Memory.write c.dmemFill dmem (signed (reg.read (fieldA w) + wordOf (sext16 (field16 w)))).toNat (reg.read (fieldB w))
  else dmem

section executing
variable (hex : s.Executing t) (hreg : t.reg = s.nextReg) (hdmem : t.dmem = s.dmem)
include hex

/-- The result in EX/MEM of a word that has one (R111). -/
theorem State.Executing.aluResult (hk : readsAlu (kindOf s.config.highBits s.exmem.instr) = true) :
    s.exmem.aluResult = (wordPath s.config s.exmem.instr).alu (t.reg.read (fieldA s.exmem.instr))
      (t.reg.read (fieldB s.exmem.instr)) (sext16 (field16 s.exmem.instr)) :=
  hex.alike.aluResult hk

/-- The index in EX/MEM of a LW or SW is the reference's (R162). -/
theorem ea_of_executing
    (hk : kindOf s.config.highBits s.exmem.instr = .LW ∨ kindOf s.config.highBits s.exmem.instr = .SW) :
    s.ea = t.ea (fieldA s.exmem.instr) (field16 s.exmem.instr) := by
  have hreads : readsAlu (kindOf s.config.highBits s.exmem.instr) = true := by
    rcases hk with hk | hk <;> rw [hk] <;> rfl
  rw [State.ea, hex.aluResult hreads, alu_address _ _ hk]
  rfl

/-- The branch in EX/MEM is taken exactly where the reference counts a squash (R112, R233). -/
theorem taken_eq_costsSquash : s.taken = costsSquash s.config s.exmem.instr t := by
  rw [Bool.eq_iff_iff, taken_iff, State.branchTaken, costsSquash_iff]
  refine and_congr_right fun hk => ?_
  rw [hex.alike.eq hk]
  exact beq_iff_eq

include hreg hdmem

/-! For each kind with an effect, the sequential effect of the word in EX/MEM is `State.afterMemory`, if the word passes
its check. -/

theorem seqExec_arith_of_executing (hk : kindOf s.config.highBits s.exmem.instr ∈ ([.ADD, .NOR] : List Kind))
    (hdest : ∀ d, destOf s.config s.exmem.instr = some d → d < 8) :
    seqExec s.config (decode s.config.highBits s.exmem.instr) t = .next (s.afterMemory t) := by
  have hcases : kindOf s.config.highBits s.exmem.instr = .ADD ∨ kindOf s.config.highBits s.exmem.instr = .NOR := by
    simpa using hk
  have hd : destOf s.config s.exmem.instr = some (namedDestination s.config s.exmem.instr) :=
    writesTo_iff_destOf.mp (.inl ⟨hk, rfl⟩)
  have hread : s.access ≠ .read := fun h => by simp [(access_read_iff _ _).mp h] at hk
  have hquiet : kindOf s.config.highBits s.exmem.instr ∉ ([.BEQ, .SW] : List Kind) := by
    rcases hcases with h | h <;> simp [h]
  have hexec : seqExec s.config (decode s.config.highBits s.exmem.instr) t =
      t.writeReg (namedDestination s.config s.exmem.instr) s.exmem.aluResult := by
    rcases hcases with h | h <;> rw [hex.aluResult (by rw [h]; rfl)]
    · rw [alu_add _ _ h, seqExec_add h]
    · rw [alu_nor _ _ h, seqExec_nor h]
  rw [hexec, RefState.writeReg, if_pos (hdest _ hd), afterMemory_eq hdmem hquiet, regAfterOlder_some hd,
    memoryStage_of_not_read hread, hreg]

theorem seqExec_lw_of_executing (hk : kindOf s.config.highBits s.exmem.instr = .LW)
    (hrange : inRange s.ea s.config.dmemWords = true) :
    seqExec s.config (decode s.config.highBits s.exmem.instr) t = .next (s.afterMemory t) := by
  have hread : s.access = .read := (access_read_iff _ _).mpr hk
  rw [seqExec_lw hk, seqLw, ← ea_of_executing hex (.inl hk), if_pos hrange, afterMemory_eq hdmem (by simp [hk]),
    regAfterOlder_some (destOf_lw _ _ hk), memoryStage_of_read hread, hreg, hdmem]
  rfl

theorem seqExec_sw_of_executing (hk : kindOf s.config.highBits s.exmem.instr = .SW)
    (hrange : inRange s.ea s.config.dmemWords = true) :
    seqExec s.config (decode s.config.highBits s.exmem.instr) t = .next (s.afterMemory t) := by
  have hwrite : s.access = .write := (access_write_iff _ _).mpr hk
  have ht : s.taken = false := taken_eq_false_iff.mpr fun h => by simp [State.branchTaken, hk] at h
  have hdata : s.exmem.storeData = t.reg.read (fieldB s.exmem.instr) := hex.alike.storeData hk
  rw [seqExec_sw hk, seqSw, ← ea_of_executing hex (.inr hk), if_pos hrange, State.afterMemory, ht,
    regAfterOlder_none (destOf_other _ _ (by simp [hk])), nextDmem_of_write hwrite, hdata, ← hreg, hdmem]
  rfl

theorem seqExec_beq_of_executing (hk : kindOf s.config.highBits s.exmem.instr = .BEQ) :
    seqExec s.config (decode s.config.highBits s.exmem.instr) t = .next (s.afterMemory t) := by
  have hwrite : s.access ≠ .write := fun h => by simp [(access_write_iff _ _).mp h] at hk
  have hflag : s.taken = equalityFlag (t.reg.read (fieldA s.exmem.instr)) (t.reg.read (fieldB s.exmem.instr)) := by
    rw [taken_eq_costsSquash hex, costsSquash, hk]
    rfl
  rw [seqExec_beq hk, seqBeq, State.afterMemory, ← hflag, hex.alike.branchTarget hk,
    regAfterOlder_none (destOf_other _ _ (by simp [hk])), nextDmem_of_not_write hwrite, ← hreg, ← hdmem]
  split <;> rfl

omit hreg in
/-- What Memory leaves of data memory, a SW in EX/MEM storing the reference's value at the reference's index (R113). -/
theorem nextDmem_of_executing : s.nextDmem = dmemAfterStoreAt s.config s.imem t.reg t.dmem t.pc := by
  have hword : fetchWord s.config s.imem t.pc = s.exmem.instr := hex.word.symm
  simp only [dmemAfterStoreAt, hword]
  split
  next hk =>
    rw [nextDmem_of_write ((access_write_iff _ _).mpr hk), State.memWrite, ea_of_executing hex (.inr hk),
      hex.alike.storeData hk, hdmem]
    rfl
  next hk => rw [nextDmem_of_not_write (mt (access_write_iff _ _).mp hk), hdmem]

/-- Where no check fails on the word in EX/MEM, the reference's step is what Memory and Writeback do with it. -/
theorem seqStep_of_executing (hhalt : kindOf s.config.highBits s.exmem.instr ≠ .HALT) (hmem : s.memoryFault = [])
    (hdest : ∀ d, destOf s.config s.exmem.instr = some d → d < 8) :
    seqStep s.config s.imem t = .next (s.afterMemory t) := by
  have hstep : seqStep s.config s.imem t = seqExec s.config (decode s.config.highBits s.exmem.instr) t := by
    rw [seqStep_of_inRange hex.inRange, hex.word]
    rfl
  have hrange (ha : kindOf s.config.highBits s.exmem.instr ∈ ([.LW, .SW] : List Kind)) :
      inRange s.ea s.config.dmemWords = true := memoryFault_nil.mp hmem (access_ne_none_iff.mpr ha)
  rw [hstep]
  cases hk : kindOf s.config.highBits s.exmem.instr with
  | ADD | NOR => exact seqExec_arith_of_executing hex hreg hdmem (by simp [hk]) hdest
  | LW => exact seqExec_lw_of_executing hex hreg hdmem hk (hrange (by simp [hk]))
  | SW => exact seqExec_sw_of_executing hex hreg hdmem hk (hrange (by simp [hk]))
  | BEQ => exact seqExec_beq_of_executing hex hreg hdmem hk
  | HALT => exact absurd hk hhalt
  | NOOP | UNREC =>
    rw [seqExec_effectless (by simp [hk]), afterMemory_eq hdmem (by simp [hk]),
      regAfterOlder_none (destOf_other _ _ (by simp [hk])), hreg]

end executing

end correspondence

/-! ### The correspondence, cycle by cycle -/

section tracking
variable {s u P : State} {r : RefRun} {n : Nat}

/-- The cycles that the instructions of a run of the reference cost: one each, one more for a stall and three more for
a squash (R233). -/
def RefRun.cost (r : RefRun) : Nat := r.executed + r.stalls + 3 * r.taken

/-- The pipeline has come as far as the reference, which stands before the word in EX/MEM: the registers are the
reference's once MEM/WB is written back, no HALT has passed Memory, and the cycles are those of what the reference
has executed (R233) and of filling the window. -/
structure State.Tracks (s : State) (r : RefRun) : Prop where
  inv : s.Inv
  reg : r.state.reg = s.nextReg
  dmem : r.state.dmem = s.dmem
  memwb : kindOf s.config.highBits s.memwb.instr ≠ .HALT
  wbend : kindOf s.config.highBits s.wbend.instr ≠ .HALT
  window : ∃ n, s.Window r.state n ∧ s.cycles = r.cost + n

/-- A launch state tracks the start of the reference: the window is empty. -/
theorem tracks_of_launch {p : LaunchParams} {program : List Word} (h : launch p program = .ok s) :
    s.Tracks (RefRun.start ⟨s.reg, 0, s.dmem⟩) := by
  have hinv := launchMeetsTheInvariant p program s h
  obtain ⟨-, -, rfl⟩ := launch_eq_ok.mp h
  exact
    { inv := hinv
      reg := (nextReg_of_noop rfl).symm
      dmem := rfl
      memwb := by simp
      wbend := by simp
      window := ⟨0, .filling rfl (.none rfl rfl rfl), rfl⟩ }

/-- A cycle that answers a next state fetched in range, and no stage faulted. -/
theorem step_next_fetched (hs : s.halted = false) (h : step s = .next u) :
    inRange s.pc s.config.imemWords = true ∧ s.stageFaults = [] ∧ u = s.advance (s.ifetch s.pc) := by
  rcases step_next h with ⟨hh, -⟩ | ⟨-, hpc, -, -⟩
  · exact absurd (hs.symm.trans hh) Bool.false_ne_true
  · exact ⟨hpc, step_next_advance hs h⟩

/-- The step of the word in EX/MEM costs the cycle it takes and what it changes in the window: a squash empties it, and
a stall has left one word fewer in it. -/
theorem cost_after (hex : s.Executing r.state) :
    (r.after s.config s.imem (s.afterMemory r.state)).cost + (if s.taken then 0 else s.behindCount r.state.pc + 1)
      = r.cost + 3 + 1 := by
  have hword : fetchWord s.config s.imem r.state.pc = s.exmem.instr := hex.word.symm
  simp only [RefRun.after, RefRun.cost, hword, ← taken_eq_costsSquash hex]
  cases ht : s.taken with
  | true =>
    have hstall : costsStall s.config s.exmem.instr (fetchWord s.config s.imem (s.afterMemory r.state).pc) = false := by
      simp [costsStall, (taken_iff.mp ht).1]
    simp only [hstall, if_true, Bool.false_eq_true, if_false]
    omega
  | false =>
    rw [afterMemory_pc_of_not_taken ht, State.behindCount, ← hex.word]
    have hnext : fetchWord s.config s.imem (r.state.pc + 1) = s.ifetch (r.state.pc + 1) := rfl
    rw [hnext]
    split <;> simp only [Bool.false_eq_true, if_false] <;> omega

/-- A cycle in which no HALT passes Memory keeps the correspondence, if the reference's registers, data memory and
window are those of the next state. -/
theorem tracks_advance {r' : RefRun} {w : Word} (h : s.Tracks r) (hf : s.stageFaults = [])
    (hhalt : kindOf s.config.highBits s.exmem.instr ≠ .HALT) (hreg : r'.state.reg = s.regAfterOlder)
    (hdmem : r'.state.dmem = s.nextDmem) {n : Nat} (hwindow : (s.advance w).Window r'.state n)
    (hcycles : s.cycles + 1 = r'.cost + n) : (s.advance w).Tracks r' where
  inv := inv_advance h.inv hf w
  reg := hreg
  dmem := hdmem
  memwb := hhalt
  wbend := h.memwb
  window := ⟨n, hwindow, hcycles⟩

/-- One cycle: the reference takes the step of the word in EX/MEM, or none where there is a bubble. That the next
cycle does not fault says that the word's destination is a register. -/
theorem tracks_step (h : s.Tracks r) (hhalt : kindOf s.config.highBits s.exmem.instr ≠ .HALT)
    (hstep : step s = .next u) (hnext : u.stageFaults = []) :
    ∃ j r', u.Tracks r' ∧ ∀ k, seqRun s.config s.imem (k + j) r = seqRun s.config s.imem k r' := by
  obtain ⟨hfetch, hf, rfl⟩ := step_next_fetched (halted_eq_false_iff.mpr h.wbend) hstep
  obtain ⟨n, hwindow, hcycles⟩ := h.window
  cases hwindow with
  | filling hexmem hbehind =>
    have ht : s.taken = false := taken_eq_false_iff.mpr fun hb => by simp [State.branchTaken, hexmem] at hb
    have hreg : r.state.reg = s.regAfterOlder := by rw [regAfterOlder_none (by simp [hexmem]), h.reg]
    have hdmem : r.state.dmem = s.nextDmem := by rw [nextDmem_of_noop hexmem, h.dmem]
    exact ⟨0, r, tracks_advance h hf hhalt hreg hdmem (window_advance h.inv hreg hbehind hfetch ht) (by omega),
      fun _ => rfl⟩
  | executing hex hbehind =>
    have hseq : seqStep s.config s.imem r.state = .next (s.afterMemory r.state) :=
      seqStep_of_executing hex h.reg h.dmem hhalt (stageFaults_nil.mp hf).2
        (writebackFault_nil.mp (stageFaults_nil.mp hnext).1)
    have hcost := cost_after hex
    refine ⟨1, r.after s.config s.imem (s.afterMemory r.state), ?_, fun _ => seqRun_succ_of_next hseq⟩
    cases ht : s.taken with
    | true =>
      rw [ht, if_pos rfl] at hcost
      exact tracks_advance h hf hhalt rfl rfl (window_advance_taken ht (if_pos ht)) (by omega)
    | false =>
      rw [ht, if_neg Bool.false_ne_true] at hcost
      rw [← afterMemory_pc_of_not_taken ht] at hbehind
      exact tracks_advance h hf hhalt rfl rfl (window_advance h.inv rfl hbehind hfetch ht) (by omega)

/-- The final state `P` of the pipeline is that of the reference at its HALT, with the word behind the HALT through
Memory, and the cycles are those of R233. -/
structure AgreesAtHalt (c : Config) (imem : Memory) (P : State) (r : RefRun) : Prop where
  reg : P.reg = r.state.reg
  dmem : P.dmem = dmemAfterStoreAt c imem r.state.reg r.state.dmem (r.state.pc + 1)
  wbend : P.wbend.instr = fetchWord c imem r.state.pc
  memwb : P.memwb.instr = fetchWord c imem (r.state.pc + 1)
  cycles : P.cycles = r.cost + 5

/-- Two cycles behind a HALT in EX/MEM it stands in WB/END, and the word behind it has been through Memory. -/
theorem agrees_of_halt_in_exmem (h : s.Tracks r) (hhalt : kindOf s.config.highBits s.exmem.instr = .HALT)
    (w w' : Word) :
    seqRun s.config s.imem 1 r = .stopped r ∧ AgreesAtHalt s.config s.imem ((s.advance w).advance w') r := by
  obtain ⟨n, hwindow, hcycles⟩ := h.window
  cases hwindow with
  | filling hexmem => simp [hexmem] at hhalt
  | executing hex hbehind =>
    have hcount : s.behindCount r.state.pc = 2 := by
      rw [State.behindCount, ← hex.word, if_neg (by simp [costsStall, hhalt])]
    rw [hcount] at hbehind
    cases hbehind with
    | two hidex =>
    have ht : s.taken = false := taken_eq_false_iff.mpr fun hb => by simp [State.branchTaken, hhalt] at hb
    have hreg : s.regAfterOlder = r.state.reg := by
      rw [regAfterOlder_none (destOf_other _ _ (by simp [hhalt])), h.reg]
    have hdmem : r.state.dmem = (s.advance w).dmem := by
      rw [advance_dmem, nextDmem_of_not_write (mt (access_write_iff _ _).mp (by simp [hhalt])), h.dmem]
    have hnext : (s.advance w).Executing ⟨r.state.reg, r.state.pc + 1, r.state.dmem⟩ :=
      executing_advance h.inv hreg.symm hidex ht
    have hafter := nextDmem_of_executing hnext hdmem
    have hstop : seqStep s.config s.imem r.state = .stop r.state := by
      rw [hex.word] at hhalt
      exact (seqStep_of_inRange hex.inRange).trans (seqExec_halt hhalt)
    exact ⟨seqRun_succ_of_stop hstop,
      { reg := hreg
        dmem := hafter
        wbend := hex.word
        memwb := hnext.word
        cycles := congrArg (· + 2) hcycles }⟩

/-- A run of the pipeline that halts ends as the reference does, by induction on its bound. -/
theorem agrees_of_tracks (h : s.Tracks r) (hrun : run n s = .halted P) :
    ∃ k r', seqRun s.config s.imem k r = .stopped r' ∧ AgreesAtHalt s.config s.imem P r' := by
  induction n generalizing s r with
  | zero => rw [run_zero_of_not_halted (halted_eq_false_iff.mpr h.wbend)] at hrun; cases hrun
  | succ n ih =>
    obtain ⟨_, u, hm, hstep, hrun⟩ := run_eq_halted_of_not_halted (halted_eq_false_iff.mpr h.wbend) hrun
    obtain rfl := Nat.succ.inj hm
    obtain ⟨-, -, rfl⟩ := step_next_fetched (halted_eq_false_iff.mpr h.wbend) hstep
    obtain ⟨m, u', -, hstep', hrun'⟩ := run_eq_halted_of_not_halted (halted_eq_false_iff.mpr h.memwb) hrun
    obtain ⟨-, hnext, rfl⟩ := step_next_fetched (halted_eq_false_iff.mpr h.memwb) hstep'
    by_cases hhalt : kindOf s.config.highBits s.exmem.instr = .HALT
    · rw [run_of_halted ((halts_iff _ _).mpr hhalt)] at hrun'
      cases hrun'
      exact ⟨1, r, agrees_of_halt_in_exmem h hhalt _ _⟩
    · obtain ⟨j, r', htracks, hseq⟩ := tracks_step h hhalt hstep hnext
      obtain ⟨k, r'', hstop, hagrees⟩ := ih htracks hrun
      exact ⟨k + j, r'', (hseq k).trans hstop, hagrees⟩

/-- Settles O48: `agrees_of_tracks` from the launch state. -/
theorem pipelineAgreesWithTheReference : Obligations.PipelineAgreesWithTheReference := by
  intro p program s P n hlaunch hrun
  obtain ⟨k, r, hstop, h⟩ := agrees_of_tracks (tracks_of_launch hlaunch) hrun
  exact ⟨k, r, hstop, h.reg, h.dmem, h.wbend, h.memwb⟩

/-- Settles O49: `agrees_of_tracks` from the launch state, the cycles being the cost of what the reference executed, the
three that filled the window, and the HALT's last two. -/
theorem cycleCountFormula : Obligations.CycleCountFormula := by
  intro p program s P n hlaunch hrun
  obtain ⟨k, r, hstop, h⟩ := agrees_of_tracks (tracks_of_launch hlaunch) hrun
  exact ⟨k, r, hstop, h.cycles⟩

end tracking

end Sys2Proof.Machine
